-- ==== Sys2Proof/Word.lean ====
section
/-! DEFINITION. The words of BUI-BPK: every value is an unsigned integer of a fixed width (00_scope.md R5, R6). -/

namespace Sys2Proof

/-- A command word on cmd_data, and a read value on rd_data: 32 bits (R5 CMD_BITS, RDATA_BITS). -/
abbrev Word := BitVec 32

/-- A byte of the packed bitstream. -/
abbrev Byte := BitVec 8

/-- A word address on rd_addr: 17 bits (R5 RADDR_BITS). -/
abbrev Addr := BitVec 17

/-- An original palette index as the host writes it: 16 bits (R5 IDX_IN_BITS). -/
abbrev PixelIndex := BitVec 16

/-- An RGB triple of the input palette: R in [23:16], G in [15:8], B in [7:0] (R16). -/
abbrev Rgb := BitVec 24

/-- A 32-bit ARGB colour: A in [31:24] (R24). -/
abbrev Color := BitVec 32

end Sys2Proof
end

