-- ==== Sys2Proof/Machine/Operands.lean ====
section
/-! DEFINITION. Operand assembly: every field is taken directly from its bits; nothing is extended, scaled or offset
(30_encoding.md R50, R56). -/

namespace Sys2Proof.Machine

/-- `c[31:24]` (R50). -/
def opcodeOf (c : Word) : BitVec 8 := c.extractLsb' 24 8

/-- `c[23:0]`, the operand area (R50); reserved as a whole in format Z (R51). -/
def operandArea (c : Word) : BitVec 24 := c.extractLsb' 0 24

/-- `c[23:16]`, reserved in formats D and X (R52, R55); the red component in format C (R54). -/
def upperByte (c : Word) : BitVec 8 := c.extractLsb' 16 8

/-- `c[23:8]`, reserved in format P (R53). -/
def upperHalf (c : Word) : BitVec 16 := c.extractLsb' 8 16

/-- `c[15:8]`: the height in format D, the green component in format C. -/
def middleByte (c : Word) : BitVec 8 := c.extractLsb' 8 8

/-- `c[7:0]`: the width in format D, the entry in format P, the blue component in format C. -/
def lowByte (c : Word) : BitVec 8 := c.extractLsb' 0 8

/-- `c[15:0]`, the index of format X. -/
def lowHalf (c : Word) : PixelIndex := c.extractLsb' 0 16

/-- The 24-bit colour operand `rgb = {r, g, b}` (R56). -/
def rgbOf (r g b : BitVec 8) : Rgb := r.zeroExtend 24 <<< 16 ||| g.zeroExtend 24 <<< 8 ||| b.zeroExtend 24

end Sys2Proof.Machine
end

