-- ==== Sys2Proof/Syntax.lean ====
section
/-! DEFINITION. The commands of BUI-BPK: one constructor for each row of spec/opcode_table.json. -/

namespace Sys2Proof

/-- A command (30_encoding.md R57). Every operand is immediate and has exactly its field's width (R56), so a command with
an operand out of its range cannot be written. A word that is no command is no `Instr`: see `decode`. -/
inductive Instr where
  /-- No operation (40_control.md R65). -/
  | nop
  /-- Every element takes its reset value (R66). -/
  | clear
  /-- Set the dimensions and start a new raster (41_input.md R70). -/
  | setdim (w h : BitVec 8)
  /-- Set the palette load pointer (R71). -/
  | pltptr (p : BitVec 8)
  /-- Write one RGB triple at the load pointer (R72); `r`, `g`, `b` are the table's fields, and `rgb = {r, g, b}` (R56). -/
  | pltw (r g b : BitVec 8)
  /-- Append one pixel to the raster (R73). -/
  | pixw (idx : PixelIndex)
  /-- Start an encode of the loaded image (42_encode.md R80). -/
  | encode
  /-- Clear the error record (40_control.md R67). -/
  | clrerr
deriving DecidableEq, Repr

end Sys2Proof
end

