-- ==== Sys2Proof/Decode.lean ====
section
/-! DEFINITION. Decoding, total on all 2^32 words (30_encoding.md R64), the opcode map as rows (R57), and the encoder
written from the formats (R51 to R55). -/

namespace Sys2Proof

open Machine

/-- What a word is: a command, or ILLEGAL for one of the two causes of R58 (log 7). -/
inductive Decoded where
  /-- The word is this command. -/
  | instr (i : Instr)
  /-- ILLEGAL: the opcode is in 0x08 .. 0xFF. -/
  | illegalOpcode
  /-- ILLEGAL: the opcode is in 0x00 .. 0x07 and some reserved bit of its format is 1. -/
  | illegalReserved
deriving DecidableEq, Repr

/-- The command, if the reserved bits of its format are all 0. -/
def whenClear (reservedClear : Bool) (i : Instr) : Decoded :=
  if reservedClear then .instr i else .illegalReserved

/-- `decode(c)` (R64). -/
def decode (c : Word) : Decoded :=
  if opcodeOf c = 0x00#8 then whenClear (operandArea c == 0) .nop
  else if opcodeOf c = 0x01#8 then whenClear (operandArea c == 0) .clear
  else if opcodeOf c = 0x02#8 then whenClear (upperByte c == 0) (.setdim (lowByte c) (middleByte c))
  else if opcodeOf c = 0x03#8 then whenClear (upperHalf c == 0) (.pltptr (lowByte c))
  else if opcodeOf c = 0x04#8 then .instr (.pltw (upperByte c) (middleByte c) (lowByte c))
  else if opcodeOf c = 0x05#8 then whenClear (upperByte c == 0) (.pixw (lowHalf c))
  else if opcodeOf c = 0x06#8 then whenClear (operandArea c == 0) .encode
  else if opcodeOf c = 0x07#8 then whenClear (operandArea c == 0) .clrerr
  else .illegalOpcode

/-- The command of a decoded word; `none` for an ILLEGAL word. -/
def Decoded.instr? : Decoded → Option Instr
  | .instr i => some i
  | .illegalOpcode => none
  | .illegalReserved => none

/-- The word of a command, as R60 composes it from the fields of R51 to R55. -/
def encode : Instr → Word
  | .nop => 0x00000000
  | .clear => 0x01000000
  | .setdim w h => 0x02000000 ||| h.zeroExtend 32 <<< 8 ||| w.zeroExtend 32
  | .pltptr p => 0x03000000 ||| p.zeroExtend 32
  | .pltw r g b => 0x04000000 ||| r.zeroExtend 32 <<< 16 ||| g.zeroExtend 32 <<< 8 ||| b.zeroExtend 32
  | .pixw idx => 0x05000000 ||| idx.zeroExtend 32
  | .encode => 0x06000000
  | .clrerr => 0x07000000

/-- A row of the opcode map (R57): a word `c` is the row's command exactly when `(c AND mask) == match`. -/
structure OpcodeRow where
  mnemonic : String
  matchBits : Word
  mask : Word
deriving DecidableEq, Repr

/-- The opcode map of R57, row by row. -/
def opcodeTable : List OpcodeRow :=
  [⟨"NOP", 0x00000000, 0xFFFFFFFF⟩, ⟨"CLEAR", 0x01000000, 0xFFFFFFFF⟩, ⟨"SETDIM", 0x02000000, 0xFFFF0000⟩,
   ⟨"PLTPTR", 0x03000000, 0xFFFFFF00⟩, ⟨"PLTW", 0x04000000, 0xFF000000⟩, ⟨"PIXW", 0x05000000, 0xFFFF0000⟩,
   ⟨"ENCODE", 0x06000000, 0xFFFFFFFF⟩, ⟨"CLRERR", 0x07000000, 0xFFFFFFFF⟩]

/-- A command's mnemonic in R57. -/
def Instr.mnemonic : Instr → String
  | .nop => "NOP"
  | .clear => "CLEAR"
  | .setdim _ _ => "SETDIM"
  | .pltptr _ => "PLTPTR"
  | .pltw _ _ _ => "PLTW"
  | .pixw _ => "PIXW"
  | .encode => "ENCODE"
  | .clrerr => "CLRERR"

/-- The command word whose low `nbits` bits are those of `w` and whose other bits are 0. Every command is one 32-bit word
(R50), so bit n of the opcode table is bit n of cmd_data. -/
def tableWord (nbits w : Nat) : Word := BitVec.ofNat 32 (w % 2 ^ nbits)

/-- The command the decoder reads from an opcode-table word. -/
def decodeTableWord (nbits w : Nat) : Option Instr := (decode (tableWord nbits w)).instr?

end Sys2Proof
end

