-- ==== Sys2Proof/Machine/State.lean ====
section
/-! DEFINITION. Everything the spec gives the machine (10_state.md, 20_memory.md R30, R33, 70_reset_and_hazards.md R131), as
plain data, with the host's remaining program (00_scope.md R2) and the model's draw counter. -/

namespace Sys2Proof.Machine

/-- A storage array of `w`-bit entries: the entries that hold a value the spec determines, each with its index, in strictly
rising order of index. An entry that is not listed is one the spec calls unspecified: it has no value here, and
`Memory.read` gives a free value for it (log 6). -/
abbrev Memory (w : Nat) : Type := List (Nat × BitVec w)

/-- The errors of 60_exceptions.md R110 (code 0, NONE, is the absence of one). -/
inductive ErrCode where
  /-- Code 1: an illegal word was accepted (R58). -/
  | illegalCmd
  /-- Code 2: PIXW on a full raster (R73). -/
  | rasterOverflow
  /-- Code 3: ENCODE with W = 0 or H = 0 (R83). -/
  | badDim
  /-- Code 4: ENCODE with PIXCNT other than W×H (R84). -/
  | rasterIncomplete
  /-- Code 5: ENCODE with a pixel index above 255 (R85). -/
  | invalidPalette
  /-- Code 6: ENCODE with a used index that has no palette entry (R86). -/
  | paletteUndefined
deriving DecidableEq, Repr

/-- The input signals of one cycle (20_memory.md R30), as the rising edge that ends the cycle samples them. -/
structure Pins where
  /-- rst_n: reset, active low. -/
  rstN : Bool
  /-- cmd_valid: the host offers a command word. -/
  cmdValid : Bool
  /-- cmd_data: the command word. -/
  cmdData : Word
  /-- rd_en: the host requests a read. -/
  rdEn : Bool
  /-- rd_addr: the word address of the read. -/
  rdAddr : Addr
deriving DecidableEq, Repr

/-- One operation of the host's program (30_encoding.md R62, 70_reset_and_hazards.md R135, R143; log 1). -/
inductive HostOp where
  /-- Drive exactly these signals for one cycle, whatever the block answers. A read (`RD`), an idle cycle, a cycle of reset,
  a read beside an offered command, a command that is offered and then dropped: each is one. -/
  | drive (p : Pins)
  /-- Offer this command word and hold it until it is accepted (R135). -/
  | offer (c : Word)
  /-- `WAIT`: read STATUS until bit 0 is 0 (R62). -/
  | wait
deriving DecidableEq, Repr

/-- The machine. The first sixteen fields are 10_state.md's elements under their own names. -/
structure State where
  /-- W (R12). -/
  w : BitVec 8
  /-- H (R12). -/
  h : BitVec 8
  /-- PIXCNT (R13). -/
  pixcnt : BitVec 16
  /-- RASTER (R14), 65025 entries. -/
  raster : Memory 16
  /-- PLTPTR (R15). -/
  pltptr : BitVec 8
  /-- PLT_IN (R16), 256 entries. -/
  pltIn : Memory 24
  /-- PLT_VALID (R17): bit i is PLT_VALID[i]. -/
  pltValid : BitVec 256
  /-- BUSY (R18). It is 1 exactly while a completion is pending (R131, last row). -/
  busy : Bool
  /-- RES_VALID (R19). -/
  resValid : Bool
  /-- ERR (R20). -/
  err : Bool
  /-- ERRCODE (R20). -/
  errcode : BitVec 4
  /-- BPP (R21). -/
  bpp : BitVec 4
  /-- NCOL (R22). -/
  ncol : BitVec 9
  /-- NBYTES (R23). -/
  nbytes : BitVec 16
  /-- PLT_OUT (R24), 256 entries. -/
  pltOut : Memory 32
  /-- BB (R25), 65025 entries. -/
  bb : Memory 8
  /-- While BUSY = 1: how many more edges pass before the edge of the pending completion (R81; log 3). -/
  encRemaining : Nat
  /-- rd_data in the present cycle (R33): no value in a cycle that does not follow a cycle with rd_en = 1. -/
  rdData : Option Word
  /-- What the host will still do (R2, R143; log 1). -/
  host : List HostOp
  /-- How many free values have been drawn (R43, R140; the model's own, log 3). -/
  draws : Nat
deriving DecidableEq, Repr

/-- The six inputs of EncodeFn (42_encode.md R82). -/
structure EncodeInput where
  w : BitVec 8
  h : BitVec 8
  pixcnt : BitVec 16
  raster : Memory 16
  pltIn : Memory 24
  pltValid : BitVec 256
deriving DecidableEq, Repr

/-- What EncodeFn returns (R82). -/
inductive EncodeResult where
  /-- `Ok(plt, bpp, bytes)`. -/
  | ok (plt : List Color) (bpp : Nat) (bytes : List Byte)
  /-- `Err(code)`. -/
  | err (code : ErrCode)
deriving DecidableEq, Repr

/-- The faults a step can end in: none. The block has no trap and nothing stops it (60_exceptions.md R112, R116), every word
is decoded (R64) and no read can fault (R47), so no constructor exists and nothing raises one. -/
inductive Fault where
deriving DecidableEq, Repr

/-- The reasons a step could have no meaning. -/
inductive Refusal where
  /-- A command that has no meaning yet, by its mnemonic. Raised by no arm of `exec`: every command has its meaning. Safe. -/
  | notModelled (mnemonic : String)
deriving DecidableEq, Repr

/-- The machine right after reset (70_reset_and_hazards.md R131). The four unspecified arrays list nothing (log 6), no read
stands before it (R33), the host has nothing to do (log 1), and no free value has been drawn (log 3). -/
def State.reset : State where
  w := 0
  h := 0
  pixcnt := 0
  raster := []
  pltptr := 0
  pltIn := []
  pltValid := 0
  busy := false
  resValid := false
  err := false
  errcode := 0
  bpp := 0
  ncol := 0
  nbytes := 0
  pltOut := []
  bb := []
  encRemaining := 0
  rdData := none
  host := []
  draws := 0

end Sys2Proof.Machine
end

