-- ==== Sys2Proof/Config.lean ====
section
/-! DEFINITION. The implementation parameters (00_scope.md R5) and the free values: what the spec leaves open has no body
here, so nothing can be proved about it but what the spec says. -/

namespace Sys2Proof.Config

/-- PLT_ENTRIES: input palette entries (R5). -/
def pltEntries : Nat := 256

/-- MAX_INDEX: the largest accepted pixel index (R5). -/
def maxIndex : Nat := 255

/-- MAX_W and MAX_H (R5). -/
def maxDim : Nat := 255

/-- MAX_PIX: raster capacity in pixels (R5). -/
def maxPix : Nat := maxDim * maxDim

/-- MAX_BPP (R5). -/
def maxBpp : Nat := 8

/-- MAX_NBYTES: output capacity in bytes (R5). -/
def maxNbytes : Nat := 65025

/-- Free value: ENC_LATENCY less 1 for the ENCODE accepted in this state (R5, R140: any finite value of at least 1, open, and
it may differ between two ENCODE commands; the state holds the draw counter, log 3). -/
opaque extraLatency : Machine.State → Nat

/-- ENC_LATENCY for the ENCODE accepted in this state: at least 1 (R5). -/
def encLatency (s : Machine.State) : Nat := extraLatency s + 1

/-- Free value: what a read of a result address gives while BUSY = 1 (20_memory.md R43), drawn anew at each such read because
the state holds the draw counter (log 4). -/
opaque busyRead : Machine.State → Addr → Word

/-- Free value: BPP from the acceptance of ENCODE to its completion (42_encode.md R80; log 5). -/
opaque busyBpp : Machine.State → BitVec 4

/-- Free value: NCOL from the acceptance of ENCODE to its completion (R80; log 5). -/
opaque busyNcol : Machine.State → BitVec 9

/-- Free value: NBYTES from the acceptance of ENCODE to its completion (R80; log 5). -/
opaque busyNbytes : Machine.State → BitVec 16

/-- Free value: an entry of a storage array of `w`-bit entries that the spec calls unspecified (10_state.md R14, R16, R24,
R25; log 6). No reachable state lets anything observe one. -/
opaque unspecified (w : Nat) (index : Nat) : BitVec w

end Sys2Proof.Config
end

