-- ==== Sys2Proof/Machine/Ops.lean ====
section
/-! DEFINITION. The operations every command uses: the storage arrays, recording an error and clearing the record, and
applying the reset values. -/

namespace Sys2Proof.Machine

/-- The value listed for entry `k`; none if entry `k` is unspecified. -/
def Memory.lookup {w : Nat} : Memory w → Nat → Option (BitVec w)
  | [], _ => none
  | (a, v) :: m, k => if a = k then some v else Memory.lookup m k

/-- `ARR[k]` (00_scope.md R7): the value of entry `k`, free if the spec calls it unspecified (log 6). -/
def Memory.read {w : Nat} (m : Memory w) (k : Nat) : BitVec w := (Memory.lookup m k).getD (Config.unspecified w k)

/-- `ARR[k] <- v` (R7). -/
def Memory.write {w : Nat} : Memory w → Nat → BitVec w → Memory w
  | [], k, v => [(k, v)]
  | (a, x) :: m, k, v =>
    if k < a then (k, v) :: (a, x) :: m
    else if k = a then (k, v) :: m
    else (a, x) :: Memory.write m k v

/-- An array whose entries from `k` on are the list's values and whose other entries are unspecified. -/
def Memory.ofValues {w : Nat} : (k : Nat) → List (BitVec w) → Memory w
  | _, [] => []
  | k, v :: vs => (k, v) :: Memory.ofValues (k + 1) vs

/-- The canonical form of an array of `n` entries: indices strictly rising, all below `n`. (An unlisted entry has no value, so
no listed one equals what an unlisted one reads as.) -/
abbrev Memory.wf {w : Nat} (n : Nat) (m : Memory w) : Prop :=
  (m.map Prod.fst).Pairwise (· < ·) ∧ ∀ c ∈ m, c.1 < n

/-- The code of an error (60_exceptions.md R110). -/
def ErrCode.code : ErrCode → BitVec 4
  | .illegalCmd => 1
  | .rasterOverflow => 2
  | .badDim => 3
  | .rasterIncomplete => 4
  | .invalidPalette => 5
  | .paletteUndefined => 6

/-- `raise Error(code)` (R111), this block's whole exception entry: no vector, no mode, no saved state (R116). The first error
since the last clear is kept. -/
def raiseError (e : ErrCode) (s : State) : State :=
  if s.err then s else { s with err := true, errcode := e.code }

/-- The return from an error (R117): ERR and ERRCODE are cleared, nothing is restored. -/
def clearError (s : State) : State := { s with err := false, errcode := 0 }

/-- The reset values of 70_reset_and_hazards.md R131 on every element, as reset and CLEAR both apply them. RASTER, PLT_IN,
PLT_OUT and BB become unspecified; a pending completion is cancelled (R132). The host's program and what rd_data shows are
no elements of R131, and the draw counter only goes up (log 3, log 9). -/
def applyReset (s : State) : State :=
  { State.reset with rdData := s.rdData, host := s.host, draws := s.draws }

/-- W × H, exact (R8). -/
def numPixels (w h : BitVec 8) : Nat := w.toNat * h.toNat

end Sys2Proof.Machine
end

