-- ==== Sys2Proof/Machine/Control.lean ====
section
/-! DEFINITION. The control commands NOP, CLEAR and CLRERR (40_control.md R65 to R67). -/

namespace Sys2Proof.Machine

/-- NOP (R65): no state change. -/
def execNop (s : State) : Host.Outcome State Fault Refusal := .next s

/-- CLEAR (R66): the reset values of R131 on every element. -/
def execClear (s : State) : Host.Outcome State Fault Refusal := .next (applyReset s)

/-- CLRERR (R67): ERR and ERRCODE cleared. -/
def execClrerr (s : State) : Host.Outcome State Fault Refusal := .next (clearError s)

end Sys2Proof.Machine
end

