-- ==== Sys2Proof/Machine/Arith.lean ====
section
/-! DEFINITION. The integer functions of 00_scope.md R8. Products and sums are exact, so they are on natural numbers. -/

namespace Sys2Proof.Machine

/-- `ceil_div(a, b)`: the least q with q × b ≥ a, for b > 0 (R8). -/
def ceilDiv (a b : Nat) : Nat := (a + b - 1) / b

/-- The least k' ≥ k with 2^k' ≥ n, if it is below k + fuel. -/
def clog2From : (fuel k n : Nat) → Nat
  | 0, k, _ => k
  | fuel + 1, k, n => if n ≤ 2 ^ k then k else clog2From fuel (k + 1) n

/-- `clog2(n)`: the least k with 2^k ≥ n, for n ≥ 1 (R8). That k is below n, so n tries are enough. -/
def clog2 (n : Nat) : Nat := clog2From n 0 n

/-- `max S` of the values of a list; 0 if it is empty, which R8 leaves out and EncodeFn never asks for. -/
def maxOf {n : Nat} : List (BitVec n) → Nat
  | [] => 0
  | x :: xs => max x.toNat (maxOf xs)

/-- Puts `x` into a strictly rising list; a value that is there already is not put in again, as in a set. -/
def insertAscending {n : Nat} (x : BitVec n) : List (BitVec n) → List (BitVec n)
  | [] => [x]
  | y :: ys =>
    if x.toNat < y.toNat then x :: y :: ys
    else if x.toNat = y.toNat then y :: ys
    else y :: insertAscending x ys

/-- `sort_ascending` of the SET of the list's values (R8): strictly increasing, equal values collapsed. -/
def sortAscending {n : Nat} : List (BitVec n) → List (BitVec n)
  | [] => []
  | x :: xs => insertAscending x (sortAscending xs)

end Sys2Proof.Machine
end

