-- ==== Sys2Proof/Machine/Pack.lean ====
section
/-! DEFINITION. Traversal and bit packing (44_pack.md R100 to R106). -/

namespace Sys2Proof.Machine

/-- Traversal order (R100): the whole row-major sequence reversed. -/
def traversal {α : Type} (rowMajor : List α) : List α := rowMajor.reverse

/-- One field (R101): the low `bpp` bits of `v`, most significant bit first. -/
def fieldBits (bpp v : Nat) : List Bool := (List.range bpp).map fun m => v.testBit (bpp - 1 - m)

/-- The stream bits s (R101): the fields one after another. -/
def streamBits (bpp : Nat) (vs : List Nat) : List Bool := vs.flatMap (fieldBits bpp)

/-- One byte (R102): the first stream bit of the group is bit 7, and missing bits are 0. -/
def byteOfBits (bits : List Bool) : Byte :=
  BitVec.ofNat 8 ((List.range 8).foldl (fun acc b => 2 * acc + (bits.getD b false).toNat) 0)

/-- `n` bytes from the stream, 8 bits at a time (R102). -/
def bytesOfBits : (n : Nat) → List Bool → List Byte
  | 0, _ => []
  | n + 1, bits => byteOfBits (bits.take 8) :: bytesOfBits n (bits.drop 8)

/-- `Pack(v, N, bpp)` (R101, R102, R103): ceil_div(N × bpp, 8) bytes. -/
def pack (bpp : Nat) (vs : List Nat) : List Byte :=
  bytesOfBits (ceilDiv (vs.length * bpp) 8) (streamBits bpp vs)

/-- Stream bit q of packed bytes: bit 7 − (q mod 8) of byte q div 8 (R102, R106). -/
def packedBit (bytes : List Byte) (q : Nat) : Bool := (bytes.getD (q / 8) 0).getLsbD (7 - q % 8)

/-- `u[t]` of the reference unpacker (R106): bits t×bpp .. t×bpp+bpp−1 of the stream, most significant first. -/
def unpackField (bytes : List Byte) (bpp t : Nat) : Nat :=
  (List.range bpp).foldl (fun u m => 2 * u + (packedBit bytes (t * bpp + m)).toNat) 0

/-- `Unpack(BB, N, bpp)` (R106). It is not part of the block: it is what R105 is stated with. -/
def unpack (bytes : List Byte) (n bpp : Nat) : List Nat := (List.range n).map (unpackField bytes bpp)

end Sys2Proof.Machine
end

