-- ==== Sys2Proof/Machine/Palette.lean ====
section
/-! DEFINITION. The palette compactor and sorter (43_palette.md R90 to R98): the part of EncodeFn that runs after its checks. -/

namespace Sys2Proof.Machine

/-- `RASTER[k]` for k in 0 .. W×H−1, in row-major order (10_state.md R14). -/
def rasterPixels (i : EncodeInput) : List PixelIndex :=
  (List.range (numPixels i.w i.h)).map (Memory.read i.raster)

/-- `RASTER[k][7:0]`, the whole index of a pixel once the bound check has passed (R91). -/
def indexByte (x : PixelIndex) : BitVec 8 := x.extractLsb' 0 8

/-- USED (R91): the set of the pixels' indices, as a strictly rising list. -/
def usedSet (i : EncodeInput) : List (BitVec 8) := sortAscending ((rasterPixels i).map indexByte)

/-- `colour(i)` (R90): `0xFF000000 OR zext_32(PLT_IN[i])`. -/
def colour (pltIn : Memory 24) (i : BitVec 8) : Color := 0xFF000000 ||| (Memory.read pltIn i.toNat).zeroExtend 32

/-- `CompactedPalette(USED, PLT_IN)` (R92): the set of the used colours, ascending by numeric value. -/
def compactedPalette (used : List (BitVec 8)) (pltIn : Memory 24) : List Color :=
  sortAscending (used.map (colour pltIn))

/-- `map(i)` (R94): the position in `plt` of colour(i). Two indices with one colour get one position. -/
def remap (plt : List Color) (pltIn : Memory 24) (i : BitVec 8) : Nat := plt.idxOf (colour pltIn i)

/-- `bpp = clog2(NCOL)` (R95). -/
def bitWidth (plt : List Color) : Nat := clog2 plt.length

end Sys2Proof.Machine
end

