-- ==== Sys2Proof/Machine/Encode.lean ====
section
/-! DEFINITION. ENCODE, the function EncodeFn it computes, and the engine's completion (42_encode.md R80 to R89). -/

namespace Sys2Proof.Machine

/-- The six inputs of EncodeFn, as the state holds them. -/
def State.encodeInput (s : State) : EncodeInput where
  w := s.w
  h := s.h
  pixcnt := s.pixcnt
  raster := s.raster
  pltIn := s.pltIn
  pltValid := s.pltValid

/-- `map(RASTER[k][7:0])` for every pixel, in row-major order (43_palette.md R94). -/
def remappedRaster (i : EncodeInput) (plt : List Color) : List Nat :=
  (rasterPixels i).map fun x => remap plt i.pltIn (indexByte x)

/-- What EncodeFn returns once all checks have passed (R82, from USED on). -/
def encodeChecked (i : EncodeInput) : EncodeResult :=
  let plt := compactedPalette (usedSet i) i.pltIn
  let bpp := bitWidth plt
  .ok plt bpp (pack bpp (traversal (remappedRaster i plt)))

/-- `EncodeFn` (R82): the checks in their order, the first failing one deciding the error (R83 to R86, R115). -/
def encodeFn (i : EncodeInput) : EncodeResult :=
  if i.w = 0 ∨ i.h = 0 then .err .badDim
  else if i.pixcnt.toNat ≠ numPixels i.w i.h then .err .rasterIncomplete
  else if maxOf (rasterPixels i) > Config.maxIndex then .err .invalidPalette
  else if (usedSet i).any (fun u => !i.pltValid.getLsbD u.toNat) then .err .paletteUndefined
  else encodeChecked i

/-- ENCODE at acceptance (R80): BUSY set, RES_VALID cleared, the results unspecified until completion (log 5), the completion
pending after ENC_LATENCY cycles (R81). -/
def execEncode (s : State) : Host.Outcome State Fault Refusal :=
  .next { s with
    busy := true
    resValid := false
    bpp := Config.busyBpp s
    ncol := Config.busyNcol s
    nbytes := Config.busyNbytes s
    pltOut := []
    bb := []
    encRemaining := Config.encLatency s - 1
    draws := s.draws + 1 }

/-- Success commit (R87): entries past NCOL and NBYTES hold nothing specified. ERR and ERRCODE are unchanged. -/
def commitSuccess (plt : List Color) (bpp : Nat) (bytes : List Byte) (s : State) : State :=
  { s with
    ncol := BitVec.ofNat 9 plt.length
    bpp := BitVec.ofNat 4 bpp
    nbytes := BitVec.ofNat 16 bytes.length
    pltOut := Memory.ofValues 0 plt
    bb := Memory.ofValues 0 bytes
    resValid := true }

/-- Failure commit (R88): no results, and the error is raised. -/
def commitFailure (e : ErrCode) (s : State) : State :=
  raiseError e { s with ncol := 0, bpp := 0, nbytes := 0, resValid := false }

/-- The engine's completion (R81): the inputs are read at this edge, and the whole result is computed at it (log 8). -/
def completeEncode (s : State) : State :=
  match encodeFn s.encodeInput with
  | .ok plt bpp bytes => { commitSuccess plt bpp bytes s with busy := false, encRemaining := 0 }
  | .err e => { commitFailure e s with busy := false, encRemaining := 0 }

/-- The engine at an edge with BUSY = 1: the completion if it is due, else one edge fewer to go (R81). -/
def engineEdge (s : State) : State :=
  match s.encRemaining with
  | 0 => completeEncode s
  | n + 1 => { s with encRemaining := n }

end Sys2Proof.Machine
end

