-- ==== Sys2Proof/Machine/Input.lean ====
section
/-! DEFINITION. The input commands SETDIM, PLTPTR, PLTW and PIXW (41_input.md R70 to R74). -/

namespace Sys2Proof.Machine

/-- SETDIM w, h (R70): a zero dimension is stored as given; RASTER keeps its contents, which PIXCNT = 0 puts out of reach. -/
def execSetdim (w h : BitVec 8) (s : State) : Host.Outcome State Fault Refusal :=
  .next { s with w := w, h := h, pixcnt := 0 }

/-- PLTPTR p (R71). -/
def execPltptr (p : BitVec 8) (s : State) : Host.Outcome State Fault Refusal :=
  .next { s with pltptr := p }

/-- PLTW rgb (R72): the pointer advances modulo 256. -/
def execPltw (r g b : BitVec 8) (s : State) : Host.Outcome State Fault Refusal :=
  .next { s with
    pltIn := s.pltIn.write s.pltptr.toNat (rgbOf r g b)
    pltValid := s.pltValid ||| BitVec.twoPow 256 s.pltptr.toNat
    pltptr := s.pltptr + 1 }

/-- PIXW idx (R73): the pixel is appended if the raster has room, whatever the index; else RASTER_OVERFLOW, RASTER and PIXCNT
unchanged. -/
def execPixw (idx : PixelIndex) (s : State) : Host.Outcome State Fault Refusal :=
  if s.pixcnt.toNat < numPixels s.w s.h then
    .next { s with raster := s.raster.write s.pixcnt.toNat idx, pixcnt := s.pixcnt + 1 }
  else
    .next (raiseError .rasterOverflow s)

end Sys2Proof.Machine
end

