-- ==== Sys2Proof/Machine/Dispatch.lean ====
section
/-! DEFINITION. The effect of an accepted command: one arm for each constructor of `Instr`. -/

namespace Sys2Proof.Machine

def exec (i : Instr) (s : State) : Host.Outcome State Fault Refusal :=
  match i with
  | .nop => Sys2Proof.Machine.execNop s
  | .clear => Sys2Proof.Machine.execClear s
  | .setdim w h => Sys2Proof.Machine.execSetdim w h s
  | .pltptr p => Sys2Proof.Machine.execPltptr p s
  | .pltw r g b => Sys2Proof.Machine.execPltw r g b s
  | .pixw idx => Sys2Proof.Machine.execPixw idx s
  | .encode => Sys2Proof.Machine.execEncode s
  | .clrerr => Sys2Proof.Machine.execClrerr s

end Sys2Proof.Machine
end

