-- ==== Sys2Proof/Machine/Flags.lean ====
section
/-! DEFINITION. The STATUS word (10_state.md R26) and cmd_ready (20_memory.md R31). These are the only flags: there are no
arithmetic condition codes. -/

namespace Sys2Proof.Machine

/-- `STATUS = zext_32({ERRCODE[3:0], 0b00000, ERR, RES_VALID, BUSY})` (R26). -/
def statusWord (s : State) : Word :=
  (s.errcode ++ 0#5 ++ BitVec.ofBool s.err ++ BitVec.ofBool s.resValid ++ BitVec.ofBool s.busy).zeroExtend 32

/-- cmd_ready: NOT BUSY while rst_n = 1, and 0 while rst_n = 0 (R31). -/
def cmdReady (p : Pins) (s : State) : Bool := p.rstN && !s.busy

end Sys2Proof.Machine
end

