-- ==== Sys2Proof/Machine/Port.lean ====
section
/-! DEFINITION. The read port and its map (20_memory.md R32 to R43), and the host's side of both ports (R30, R31,
30_encoding.md R62, 70_reset_and_hazards.md R135). -/

namespace Sys2Proof.Machine

/-- The PLT_IN view of entry `i` (R41): bit 24 says that the entry is valid; an entry that is not reads 0. -/
def pltInView (s : State) (i : Nat) : Word :=
  if s.pltValid.getLsbD i then (1#1 ++ s.pltIn.read i).zeroExtend 32 else 0

/-- The PLT_OUT window at entry `k` (R39). -/
def pltOutWindow (s : State) (k : Nat) : Word :=
  if k < s.ncol.toNat then s.pltOut.read k else 0

/-- The BB window at byte `j` (R40). -/
def bbWindow (s : State) (j : Nat) : Word :=
  if j < s.nbytes.toNat then (s.bb.read j).zeroExtend 32 else 0

/-- The read map (R34 to R42) by word address, on the state's elements. -/
def readMap (s : State) (a : Nat) : Word :=
  if a = 0x00000 then statusWord s
  else if a = 0x00001 then (s.h ++ s.w).zeroExtend 32
  else if a = 0x00002 then s.pixcnt.zeroExtend 32
  else if a = 0x00003 then s.pltptr.zeroExtend 32
  else if a = 0x00004 then s.bpp.zeroExtend 32
  else if a = 0x00005 then s.ncol.zeroExtend 32
  else if a = 0x00006 then s.nbytes.zeroExtend 32
  else if 0x00100 ≤ a ∧ a ≤ 0x001FF then pltInView s (a - 0x00100)
  else if 0x00200 ≤ a ∧ a ≤ 0x002FF then pltOutWindow s (a - 0x00200)
  else if 0x10000 ≤ a then bbWindow s (a - 0x10000)
  else 0

/-- The addresses of BPP, NCOL, NBYTES, the PLT_OUT window and the BB window (R43). -/
def isResultAddr (a : Nat) : Bool :=
  a = 0x00004 || a = 0x00005 || a = 0x00006 || (0x00200 ≤ a && a ≤ 0x002FF) || 0x10000 ≤ a

/-- Whether a read of this address draws a free value in this state (R43). -/
def drawsOnRead (s : State) (a : Addr) : Bool := s.busy && isResultAddr a.toNat

/-- `MemRead(a, 4)` (R33): the map's value, but a free one at a result address while BUSY = 1 (R43). -/
def memRead (s : State) (a : Addr) : Word :=
  if drawsOnRead s a then Config.busyRead s a else readMap s a.toNat

/-- The read port at an edge (R32, R33): rd_data after it is the value at rd_addr in the state before it, and no value if
rd_en was 0. No element of the block changes. -/
def readPort (p : Pins) (s : State) : State :=
  if p.rdEn then
    { s with rdData := some (memRead s p.rdAddr), draws := if drawsOnRead s p.rdAddr then s.draws + 1 else s.draws }
  else
    { s with rdData := none }

/-- A cycle in which the host does nothing. -/
def Pins.idle : Pins where
  rstN := true
  cmdValid := false
  cmdData := 0
  rdEn := false
  rdAddr := 0

/-- A cycle in which the host offers a command word. -/
def Pins.command (c : Word) : Pins := { Pins.idle with cmdValid := true, cmdData := c }

/-- `RD a` (30_encoding.md R62): a cycle in which the host requests a read. -/
def Pins.read (a : Addr) : Pins := { Pins.idle with rdEn := true, rdAddr := a }

/-- A cycle of reset (70_reset_and_hazards.md R130). -/
def Pins.resetting : Pins := { Pins.idle with rstN := false }

/-- The signals the host drives in the present cycle. -/
def hostPins : List HostOp → Pins
  | [] => Pins.idle
  | .drive p :: _ => p
  | .offer c :: _ => Pins.command c
  | .wait :: _ => Pins.read 0

/-- The host's program after the edge that ends the present cycle: an offered command stays until it is accepted (R135), and
WAIT repeats its read until STATUS shows BUSY = 0 (R62; log 10). -/
def hostAfter (s : State) : List HostOp :=
  match s.host with
  | [] => []
  | .drive _ :: rest => rest
  | .offer c :: rest => if cmdReady (Pins.command c) s then rest else .offer c :: rest
  | .wait :: rest => if (memRead s 0).getLsbD 0 then .wait :: rest else rest

end Sys2Proof.Machine
end

