-- ==== Sys2Proof/Machine/Clock.lean ====
section
/-! DEFINITION. One rising edge of clk (20_memory.md R31, R33): the read, then at most one of reset, engine, acceptance. -/

namespace Sys2Proof.Machine

/-- `execute(decode(c))` (30_encoding.md R64): an ILLEGAL word raises ILLEGAL_CMD and does nothing else (R58). -/
def execute (d : Decoded) (s : State) : Host.Outcome State Fault Refusal :=
  match d with
  | .instr i => exec i s
  | .illegalOpcode => .next (raiseError .illegalCmd s)
  | .illegalReserved => .next (raiseError .illegalCmd s)

/-- What the block does at an edge, beside the read (R31): reset overrides everything (R130); while BUSY = 1 only the engine
moves and no command is accepted; else an offered command is accepted. -/
def blockEdge (p : Pins) (s : State) : Host.Outcome State Fault Refusal :=
  if p.rstN = false then .next (applyReset s)
  else if s.busy then .next (engineEdge s)
  else if p.cmdValid then execute (decode p.cmdData) s
  else .next s

/-- The state the block's edge starts from: rd_data and the host's program have moved on, both from the state before it. -/
def portsEdge (s : State) : State := { readPort (hostPins s.host) s with host := hostAfter s }

/-- One rising edge of clk. -/
def clockEdge (s : State) : Host.Outcome State Fault Refusal := blockEdge (hostPins s.host) (portsEdge s)

/-- The host offers word `c` before everything else it has to do, to a block that is not busy: an ENCODE in progress is taken
as completed, because the block accepts no command before that (R31; log 2). -/
def offerNow (c : Word) (s : State) : State :=
  let idle := if s.busy then completeEncode s else s
  { idle with host := .offer c :: s.host }

end Sys2Proof.Machine
end

