-- ==== Sys2Proof/Machine/Step.lean ====
section
/-! DEFINITION. One step of the machine is one rising edge of clk; and a command word placed where the next step takes it. -/

namespace Sys2Proof.Machine

/-- One step (20_memory.md R31). -/
def step (s : State) : Host.Outcome State Fault Refusal := clockEdge s

/-- The state in which the next step accepts this opcode-table word (log 2). The block fetches nothing (10_state.md R11): the
word is offered on the command port. -/
def State.withFetchWord (s : State) (nbits w : Nat) : State := offerNow (tableWord nbits w) s

end Sys2Proof.Machine
end

