-- ==== Sys2Proof/Assembly.lean ====
section
/-! DEFINITION. The lines of a command stream (30_encoding.md R60 to R62), as abstract syntax. Operands are natural numbers, as
they are written, so that one out of its range can be said and rejected. -/

namespace Sys2Proof

/-- The registers that `RD name` can name: those of 20_memory.md R34 with an address of their own. -/
inductive RegName where
  | status
  | dim
  | pixcnt
  | pltptr
  | bpp
  | ncol
  | nbytes
deriving DecidableEq, Repr

/-- One line of a command stream. -/
inductive AsmLine where
  /-- `NOP` (R60). -/
  | nop
  /-- `CLEAR`. -/
  | clear
  /-- `SETDIM w, h`. -/
  | setdim (w h : Nat)
  /-- `PLTPTR p`. -/
  | pltptr (p : Nat)
  /-- `PLTW 0xRRGGBB`. -/
  | pltw (rgb : Nat)
  /-- `PLTW r, g, b`. -/
  | pltwParts (r g b : Nat)
  /-- `PIXW idx`. -/
  | pixw (idx : Nat)
  /-- `ENCODE`. -/
  | encode
  /-- `CLRERR`. -/
  | clrerr
  /-- `.word 0xHHHHHHHH`: the literal word, which may be an illegal command. -/
  | word (c : Nat)
  /-- `LOADPLT p, c0, c1, ..., cn` (R61). -/
  | loadplt (p : Nat) (colours : List Nat)
  /-- `LOADPIX i0, i1, ..., in` (R61). -/
  | loadpix (indices : List Nat)
  /-- `IMAGE w, h` (R61). -/
  | image (w h : Nat)
  /-- `RD 0xAAAAA` (R62). -/
  | rd (a : Nat)
  /-- `RD name` (R62). -/
  | rdName (name : RegName)
  /-- `WAIT` (R62). -/
  | wait
deriving DecidableEq, Repr

end Sys2Proof
end

