-- ==== Sys2Proof/WellFormed.lean ====
section
/-! DEFINITION. Well-formedness. An `Instr` is well formed by its type (each operand has its field's width, 30_encoding.md R56);
a line of a command stream is well formed if every operand is in its range (R60: "An assembler must reject an operand out of
its range. It must not truncate it."). -/

namespace Sys2Proof

/-- The operand ranges of R60 to R62, and at least one operand where R61's forms show one (c0, i0). -/
def AsmLine.wellFormed : AsmLine → Bool
  | .nop => true
  | .clear => true
  | .setdim w h => w ≤ 255 && h ≤ 255
  | .pltptr p => p ≤ 255
  | .pltw rgb => rgb ≤ 0xFFFFFF
  | .pltwParts r g b => r ≤ 255 && g ≤ 255 && b ≤ 255
  | .pixw idx => idx ≤ 65535
  | .encode => true
  | .clrerr => true
  | .word c => c ≤ 0xFFFFFFFF
  | .loadplt p colours => p ≤ 255 && !colours.isEmpty && colours.all (· ≤ 0xFFFFFF)
  | .loadpix indices => !indices.isEmpty && indices.all (· ≤ 65535)
  | .image w h => w ≤ 255 && h ≤ 255
  | .rd a => a ≤ 0x1FFFF
  | .rdName _ => true
  | .wait => true

end Sys2Proof
end

