-- ==== Sys2Proof/Machine/Assembler.lean ====
section
/-! DEFINITION. The assembler (30_encoding.md R60 to R62): a line becomes the host operations that issue it, or is rejected; and
the reading of a line's text. It is outside the block: it makes the host's programs. -/

namespace Sys2Proof.Machine

/-- The address of a named register (20_memory.md R34). -/
def regAddr : RegName → Nat
  | .status => 0x00000
  | .dim => 0x00001
  | .pixcnt => 0x00002
  | .pltptr => 0x00003
  | .bpp => 0x00004
  | .ncol => 0x00005
  | .nbytes => 0x00006

/-- The words of R60's table, by operands in range. -/
def setdimWord (w h : Nat) : Word := BitVec.ofNat 32 (0x02000000 ||| h <<< 8 ||| w)

/-- `0x03000000 OR p` (R60). -/
def pltptrWord (p : Nat) : Word := BitVec.ofNat 32 (0x03000000 ||| p)

/-- `0x04000000 OR rgb` (R60). -/
def pltwWord (rgb : Nat) : Word := BitVec.ofNat 32 (0x04000000 ||| rgb)

/-- `0x05000000 OR idx` (R60). -/
def pixwWord (idx : Nat) : Word := BitVec.ofNat 32 (0x05000000 ||| idx)

/-- What a line with operands in range stands for. -/
def expandLine : AsmLine → List HostOp
  | .nop => [.offer 0x00000000]
  | .clear => [.offer 0x01000000]
  | .setdim w h => [.offer (setdimWord w h)]
  | .pltptr p => [.offer (pltptrWord p)]
  | .pltw rgb => [.offer (pltwWord rgb)]
  | .pltwParts r g b => [.offer (pltwWord (r <<< 16 ||| g <<< 8 ||| b))]
  | .pixw idx => [.offer (pixwWord idx)]
  | .encode => [.offer 0x06000000]
  | .clrerr => [.offer 0x07000000]
  | .word c => [.offer (BitVec.ofNat 32 c)]
  | .loadplt p colours => .offer (pltptrWord p) :: colours.map fun c => .offer (pltwWord c)
  | .loadpix indices => indices.map fun i => .offer (pixwWord i)
  | .image w h => [.offer (setdimWord w h)]
  | .rd a => [.drive (Pins.read (BitVec.ofNat 17 a))]
  | .rdName name => [.drive (Pins.read (BitVec.ofNat 17 (regAddr name)))]
  | .wait => [.wait]

/-- A line's host operations; none if an operand is out of its range (R60). -/
def assembleLine (l : AsmLine) : Option (List HostOp) := if l.wellFormed then some (expandLine l) else none

/-- A command stream's host operations, line after line; none if some line is rejected. -/
def assemble : List AsmLine → Option (List HostOp)
  | [] => some []
  | l :: ls =>
    match assembleLine l, assemble ls with
    | some ops, some rest => some (ops ++ rest)
    | _, _ => none

/-- Space, tab or carriage return: what may stand around an operand (log 11). -/
def isBlank (c : Char) : Bool := c = ' ' || c = '\t' || c = '\r'

/-- Text without blanks at its two ends. -/
def trimBlanks (cs : List Char) : List Char := ((cs.dropWhile isBlank).reverse.dropWhile isBlank).reverse

/-- Text cut at every `sep`. -/
def cutAt (sep : Char) : List Char → List (List Char)
  | [] => [[]]
  | c :: cs =>
    match cutAt sep cs with
    | [] => [[c]]
    | part :: parts => if c = sep then [] :: part :: parts else (c :: part) :: parts

/-- A digit's value in base 10 or 16. -/
def digitValue (base : Nat) (c : Char) : Option Nat :=
  let n := c.toNat
  let v := if 48 ≤ n ∧ n ≤ 57 then n - 48 else if 65 ≤ n ∧ n ≤ 70 then n - 55 else if 97 ≤ n ∧ n ≤ 102 then n - 87 else base
  if v < base then some v else none

/-- Digits, most significant first, after the value `acc`. -/
def digitsValue (base : Nat) : (acc : Nat) → List Char → Option Nat
  | acc, [] => some acc
  | acc, c :: cs =>
    match digitValue base c with
    | some d => digitsValue base (acc * base + d) cs
    | none => none

/-- A number: decimal, or hexadecimal with the prefix `0x` (R60). -/
def numberOf : List Char → Option Nat
  | [] => none
  | ['0', 'x'] => none
  | '0' :: 'x' :: cs => digitsValue 16 0 cs
  | cs => digitsValue 10 0 cs

/-- The operands of a line: none at all, or numbers separated by commas. -/
def operandsOf (cs : List Char) : Option (List Nat) :=
  match trimBlanks cs with
  | [] => some []
  | text => (cutAt ',' text).mapM fun part => numberOf (trimBlanks part)

/-- The register that a name stands for. -/
def regNameOf (cs : List Char) : Option RegName :=
  if cs = ['S', 'T', 'A', 'T', 'U', 'S'] then some .status
  else if cs = ['D', 'I', 'M'] then some .dim
  else if cs = ['P', 'I', 'X', 'C', 'N', 'T'] then some .pixcnt
  else if cs = ['P', 'L', 'T', 'P', 'T', 'R'] then some .pltptr
  else if cs = ['B', 'P', 'P'] then some .bpp
  else if cs = ['N', 'C', 'O', 'L'] then some .ncol
  else if cs = ['N', 'B', 'Y', 'T', 'E', 'S'] then some .nbytes
  else none

/-- A line by its mnemonic and its numbers; none if there is no such form. -/
def lineOf (mnemonic : List Char) (operands : List Nat) : Option AsmLine :=
  match mnemonic, operands with
  | ['N', 'O', 'P'], [] => some .nop
  | ['C', 'L', 'E', 'A', 'R'], [] => some .clear
  | ['S', 'E', 'T', 'D', 'I', 'M'], [w, h] => some (.setdim w h)
  | ['P', 'L', 'T', 'P', 'T', 'R'], [p] => some (.pltptr p)
  | ['P', 'L', 'T', 'W'], [rgb] => some (.pltw rgb)
  | ['P', 'L', 'T', 'W'], [r, g, b] => some (.pltwParts r g b)
  | ['P', 'I', 'X', 'W'], [idx] => some (.pixw idx)
  | ['E', 'N', 'C', 'O', 'D', 'E'], [] => some .encode
  | ['C', 'L', 'R', 'E', 'R', 'R'], [] => some .clrerr
  | ['.', 'w', 'o', 'r', 'd'], [c] => some (.word c)
  | ['L', 'O', 'A', 'D', 'P', 'L', 'T'], p :: colours => some (.loadplt p colours)
  | ['L', 'O', 'A', 'D', 'P', 'I', 'X'], indices => some (.loadpix indices)
  | ['I', 'M', 'A', 'G', 'E'], [w, h] => some (.image w h)
  | ['R', 'D'], [a] => some (.rd a)
  | ['W', 'A', 'I', 'T'], [] => some .wait
  | _, _ => none

/-- One line of text (R60): the mnemonic, then its operands; `;` starts a comment. A line with nothing else on it is no command. -/
def readLine (text : List Char) : Option (List AsmLine) :=
  let code := trimBlanks (text.takeWhile (· ≠ ';'))
  let mnemonic := code.takeWhile (fun c => !isBlank c)
  let rest := trimBlanks (code.dropWhile (fun c => !isBlank c))
  if code = [] then some []
  else
    match if mnemonic = ['R', 'D'] then regNameOf rest else none with
    | some name => some [.rdName name]
    | none =>
      match operandsOf rest with
      | some operands => (lineOf mnemonic operands).map fun l => [l]
      | none => none

/-- A whole text, one command on each line: the host operations it stands for; none if a line cannot be read or is rejected. -/
def assembleText (text : List Char) : Option (List HostOp) :=
  match (cutAt '\n' text).mapM readLine with
  | some lines => assemble lines.flatten
  | none => none

end Sys2Proof.Machine
end

