-- ==== Sys2Proof/Safety.lean ====
section
/-! DEFINITION. What a reachable state satisfies (10_state.md R28 and the rules it rests on), when a run has ended
(70_reset_and_hazards.md R143), and the terms that claims are stated in. -/

namespace Sys2Proof.Machine

/-- R28.1: `PIXCNT ≤ W × H`. -/
def State.PixelCountBounded (s : State) : Prop := s.pixcnt.toNat ≤ numPixels s.w s.h

/-- R28.2: `ERR = 0` implies `ERRCODE = 0`; `ERR = 1` implies that ERRCODE is in 1 .. 6. -/
def State.ErrorRecordLegal (s : State) : Prop :=
  (s.err = false → s.errcode = 0) ∧ (s.err = true → 1 ≤ s.errcode.toNat ∧ s.errcode.toNat ≤ 6)

/-- `PLT_OUT[0] < PLT_OUT[1] < ... < PLT_OUT[NCOL−1]` (R28.3). -/
def State.PaletteRising (s : State) : Prop :=
  ∀ k < s.ncol.toNat, ∀ j < k, (s.pltOut.read j).toNat < (s.pltOut.read k).toNat

/-- R28.3. -/
def State.ResultLegal (s : State) : Prop :=
  s.resValid = true →
    s.busy = false ∧ 1 ≤ s.ncol.toNat ∧ s.ncol.toNat ≤ 256 ∧ s.bpp.toNat = clog2 s.ncol.toNat ∧ s.PaletteRising

/-- R28.4: NBYTES fits the dimensions W_e, H_e of the ENCODE that produced the result. No element keeps those, so they are
only said to exist (log 12). -/
def State.ByteCountLegal (s : State) : Prop :=
  s.resValid = true →
    ∃ we he : BitVec 8, we ≠ 0 ∧ he ≠ 0 ∧ s.nbytes.toNat = ceilDiv (numPixels we he * s.bpp.toNat) 8

/-- R28.5: `RES_VALID = 0` and BUSY = 0 imply `NCOL = 0`, `BPP = 0` and `NBYTES = 0`. -/
def State.NoResultIsZero (s : State) : Prop :=
  s.resValid = false → s.busy = false → s.ncol = 0 ∧ s.bpp = 0 ∧ s.nbytes = 0

/-- The storage arrays are in their canonical form and within their sizes (00_scope.md R5). -/
def State.StorageCanonical (s : State) : Prop :=
  Memory.wf Config.maxPix s.raster ∧ Memory.wf Config.pltEntries s.pltIn ∧
    Memory.wf Config.pltEntries s.pltOut ∧ Memory.wf Config.maxNbytes s.bb

/-- Entry `k` has been written since it last became unspecified. -/
def Memory.Written {w : Nat} (m : Memory w) (k : Nat) : Prop := (Memory.lookup m k).isSome = true

/-- What the masks and checks let anything read has been written: pixels below PIXCNT (R14), entries with PLT_VALID (R17), and
with RES_VALID the entries below NCOL and NBYTES (R24, R25). -/
def State.ReadableWritten (s : State) : Prop :=
  (∀ k < s.pixcnt.toNat, s.raster.Written k) ∧
  (∀ i < 256, s.pltValid.getLsbD i = true → s.pltIn.Written i) ∧
  (s.resValid = true → (∀ k < s.ncol.toNat, s.pltOut.Written k) ∧ ∀ j < s.nbytes.toNat, s.bb.Written j)

/-- No edges are counted while no completion is pending (R131, last row). -/
def State.EngineLegal (s : State) : Prop := s.busy = false → s.encRemaining = 0

/-- What every reachable state satisfies: R28, with the storage facts that 10_state.md's rules on unspecified contents rest on. -/
structure State.Inv (s : State) : Prop where
  pixels : s.PixelCountBounded
  errors : s.ErrorRecordLegal
  result : s.ResultLegal
  byteCount : s.ByteCountLegal
  noResult : s.NoResultIsZero
  storage : s.StorageCanonical
  written : s.ReadableWritten
  engine : s.EngineLegal

/-- A run has ended (R143): the host's last command has been accepted, its last read has returned, and BUSY = 0. -/
def State.ended (s : State) : Prop := s.host = [] ∧ s.busy = false

/-- `n` steps. -/
def run : (n : Nat) → State → Host.Outcome State Fault Refusal
  | 0, s => .next s
  | n + 1, s =>
    match step s with
    | .next t => run n t
    | .fault r => .fault r
    | .refused r => .refused r

/-- The host's signals in the present cycle. -/
def State.pins (s : State) : Pins := hostPins s.host

/-- The edge that ends the present cycle accepts word `c` (20_memory.md R31). -/
def State.accepts (s : State) (c : Word) : Prop :=
  s.pins.cmdValid = true ∧ s.pins.cmdData = c ∧ cmdReady s.pins s = true

/-- Every element that a reset or CLEAR sets has its reset value (70_reset_and_hazards.md R131); the unspecified arrays hold
nothing specified. -/
def State.AtReset (s : State) : Prop :=
  s.w = 0 ∧ s.h = 0 ∧ s.pixcnt = 0 ∧ s.raster = [] ∧ s.pltptr = 0 ∧ s.pltIn = [] ∧ s.pltValid = 0 ∧ s.busy = false ∧
    s.resValid = false ∧ s.err = false ∧ s.errcode = 0 ∧ s.bpp = 0 ∧ s.ncol = 0 ∧ s.nbytes = 0 ∧ s.pltOut = [] ∧ s.bb = []

/-- The host never asserts reset in what it will still do. -/
def neverResets (ops : List HostOp) : Prop := ∀ p, HostOp.drive p ∈ ops → p.rstN = true

/-- The two states have the same input image state: W, H, PIXCNT, RASTER, PLTPTR, PLT_IN, PLT_VALID (10_state.md R29). -/
def SameInputs (s t : State) : Prop :=
  t.w = s.w ∧ t.h = s.h ∧ t.pixcnt = s.pixcnt ∧ t.raster = s.raster ∧ t.pltptr = s.pltptr ∧ t.pltIn = s.pltIn ∧
    t.pltValid = s.pltValid

/-- The two states have the same result: RES_VALID, BPP, NCOL, NBYTES, PLT_OUT, BB (41_input.md R74). -/
def SameResult (s t : State) : Prop :=
  t.resValid = s.resValid ∧ t.bpp = s.bpp ∧ t.ncol = s.ncol ∧ t.nbytes = s.nbytes ∧ t.pltOut = s.pltOut ∧ t.bb = s.bb

/-- The two states have the same error record (R20). -/
def SameErrors (s t : State) : Prop := t.err = s.err ∧ t.errcode = s.errcode

/-- The two states have the same engine (BUSY and the pending completion, R18, R131). -/
def SameEngine (s t : State) : Prop := t.busy = s.busy ∧ t.encRemaining = s.encRemaining

/-- The two states have the same rd_data, host program and draw counter: what no command touches but ENCODE's draw. -/
def SamePorts (s t : State) : Prop := t.rdData = s.rdData ∧ t.host = s.host ∧ t.draws = s.draws

/-- The image is one EncodeFn can go on with past its first two checks (42_encode.md R83, R84). -/
def EncodeInput.Complete (i : EncodeInput) : Prop := i.w ≠ 0 ∧ i.h ≠ 0 ∧ i.pixcnt.toNat = numPixels i.w i.h

/-- Index `u` is used: some pixel of the image holds it (43_palette.md R91). -/
def EncodeInput.Uses (i : EncodeInput) (u : BitVec 8) : Prop :=
  ∃ k < numPixels i.w i.h, indexByte (i.raster.read k) = u

/-- The new index of pixel `k` (R94, R100). -/
def EncodeInput.newIndex (i : EncodeInput) (plt : List Color) (k : Nat) : Nat :=
  remap plt i.pltIn (indexByte (i.raster.read k))

end Sys2Proof.Machine
end

