-- ==== Sys2Proof/Certificates/Slice0/Obligations.lean ====
section
/-! DEFINITION. The statements for the provers. Each docstring names the rule of the spec that the statement formalises. -/

open Sys2Proof Sys2Proof.Machine

/-! ### Encoding (30_encoding.md) -/

/-- Words of R57 and 95_test_vectors.md 2.1, decoded. -/
def Obligations.SampleWordsDecode : Prop :=
  decode 0x00000000 = .instr .nop ∧ decode 0x01000000 = .instr .clear ∧
  decode 0x02000102 = .instr (.setdim 0x02 0x01) ∧ decode 0x030000FE = .instr (.pltptr 0xFE) ∧
  decode 0x04ABCDEF = .instr (.pltw 0xAB 0xCD 0xEF) ∧ decode 0x0500012C = .instr (.pixw 0x012C) ∧
  decode 0x06000000 = .instr .encode ∧ decode 0x07000000 = .instr .clrerr ∧
  decode 0x02010203 = .illegalReserved ∧ decode 0x06000010 = .illegalReserved ∧ decode 0x08000000 = .illegalOpcode

/-- Decoding and encoding agree: a word decodes to a command, with these operands, exactly if it is that command's word. So
every command at every operand value decodes to itself, no two words mean one command, and no bit is dropped (R50 to R57, R64). -/
def Obligations.DecodeAndEncodeAgree : Prop := ∀ (c : Word) (i : Instr), decode c = .instr i ↔ encode i = c

/-- R57: a word is the command of a row exactly when `(c AND mask) == match`; the rows are disjoint; opcodes from 0x08 on are
illegal. -/
def Obligations.DecodeFollowsOpcodeMap : Prop :=
  (∀ (c : Word), ∀ row ∈ opcodeTable,
    (c &&& row.mask = row.matchBits ↔ ∃ i, decode c = .instr i ∧ i.mnemonic = row.mnemonic)) ∧
  (∀ (c : Word), ∀ r₁ ∈ opcodeTable, ∀ r₂ ∈ opcodeTable,
    c &&& r₁.mask = r₁.matchBits → c &&& r₂.mask = r₂.matchBits → r₁ = r₂) ∧
  (∀ c : Word, 8 ≤ (c.extractLsb' 24 8).toNat → decode c = .illegalOpcode)

/-- R56: every operand is its field's bits, and the colour operand is `{r, g, b}` = c[23:0]. -/
def Obligations.OperandsAreTheirFields : Prop :=
  (∀ (c : Word) (w h : BitVec 8), decode c = .instr (.setdim w h) → w = c.extractLsb' 0 8 ∧ h = c.extractLsb' 8 8) ∧
  (∀ (c : Word) (p : BitVec 8), decode c = .instr (.pltptr p) → p = c.extractLsb' 0 8) ∧
  (∀ (c : Word) (r g b : BitVec 8), decode c = .instr (.pltw r g b) →
    r = c.extractLsb' 16 8 ∧ g = c.extractLsb' 8 8 ∧ b = c.extractLsb' 0 8 ∧ rgbOf r g b = c.extractLsb' 0 24) ∧
  (∀ (c : Word) (idx : PixelIndex), decode c = .instr (.pixw idx) → idx = c.extractLsb' 0 16)

/-- R58: a word is illegal exactly if its opcode is 0x08 .. 0xFF or `(c AND mask) != match` for its opcode's row; accepting
one records ILLEGAL_CMD if no error is recorded, and changes nothing else (rd_data and the host's program move as at every
edge). An offered word, illegal or not, is accepted by a block that is not busy, and the offer is done with. -/
def Obligations.IllegalWordsOnlyRecordAnError : Prop :=
  (∀ c : Word, (decode c).instr? = none ↔
    (8 ≤ (c.extractLsb' 24 8).toNat ∨
      ∃ row ∈ opcodeTable, row.matchBits.extractLsb' 24 8 = c.extractLsb' 24 8 ∧ c &&& row.mask ≠ row.matchBits)) ∧
  (∀ (s : State) (c : Word), s.accepts c → (decode c).instr? = none →
    step s = .next { s with
      err := true
      errcode := if s.err then s.errcode else 1
      rdData := if s.pins.rdEn then some (memRead s s.pins.rdAddr) else none
      host := hostAfter s }) ∧
  (∀ (s : State) (c : Word) (rest : List HostOp), s.host = .offer c :: rest → s.busy = false →
    s.accepts c ∧ hostAfter s = rest)

/-- R60, R62: a line with operands in range is the word of its command, or the read of its address. -/
def Obligations.AssembledLinesAreTheirWords : Prop :=
  (∀ w h : BitVec 8, assembleLine (.setdim w.toNat h.toNat) = some [.offer (encode (.setdim w h))]) ∧
  (∀ p : BitVec 8, assembleLine (.pltptr p.toNat) = some [.offer (encode (.pltptr p))]) ∧
  (∀ r g b : BitVec 8, assembleLine (.pltwParts r.toNat g.toNat b.toNat) = some [.offer (encode (.pltw r g b))]) ∧
  (∀ r g b : BitVec 8, assembleLine (.pltw (rgbOf r g b).toNat) = some [.offer (encode (.pltw r g b))]) ∧
  (∀ idx : PixelIndex, assembleLine (.pixw idx.toNat) = some [.offer (encode (.pixw idx))]) ∧
  (∀ c : Word, assembleLine (.word c.toNat) = some [.offer c]) ∧
  (∀ a : Addr, assembleLine (.rd a.toNat) = some [.drive (Pins.read a)])

/-- R61: LOADPLT, LOADPIX and IMAGE are the commands they expand to, in order, out-of-range operands rejected with them. -/
def Obligations.PseudoCommandsExpand : Prop :=
  (∀ (p c : Nat) (cs : List Nat),
    assembleLine (.loadplt p (c :: cs)) = assemble (.pltptr p :: (c :: cs).map AsmLine.pltw)) ∧
  (∀ (i : Nat) (is : List Nat), assembleLine (.loadpix (i :: is)) = assemble ((i :: is).map AsmLine.pixw)) ∧
  (∀ w h : Nat, assembleLine (.image w h) = assembleLine (.setdim w h))

/-! ### One edge (20_memory.md R31, R33; 70_reset_and_hazards.md) -/

/-- A step in which word `c` is accepted is its command's `exec`, from the state whose rd_data and host program have moved on;
a held offer is done with (R31). -/
def Obligations.StepRunsAcceptedCommand : Prop :=
  ∀ (s : State) (c : Word) (i : Instr), s.accepts c → decode c = .instr i →
    step s = exec i { s with
      rdData := if s.pins.rdEn then some (memRead s s.pins.rdAddr) else none
      host := hostAfter s } ∧
    ∀ rest, s.host = .offer c :: rest → hostAfter s = rest

/-- R135: while BUSY = 1 cmd_ready is 0, no word is accepted, only the engine moves, and an offered command stays offered. -/
def Obligations.CommandsAreHeldWhileBusy : Prop :=
  ∀ s : State, s.busy = true →
    (∀ p, cmdReady p s = false) ∧ (∀ c, ¬ s.accepts c) ∧
    (s.pins.rstN = true → step s = .next (engineEdge (portsEdge s))) ∧
    (∀ c rest t, s.host = .offer c :: rest → step s = .next t → t.host = .offer c :: rest)

/-- R130, R132: at an edge with rst_n = 0 the reset values are applied, no command is accepted, and a pending completion is
cancelled. -/
def Obligations.ResetEdgeAppliesResetValues : Prop :=
  ∀ s : State, s.pins.rstN = false →
    cmdReady s.pins s = false ∧ (∀ c, ¬ s.accepts c) ∧
    ∃ t, step s = .next t ∧ t.AtReset ∧ t.encRemaining = 0 ∧ t.host = hostAfter s

/-- R131: the reset state, and "after reset every read address returns 0x00000000". -/
def Obligations.ResetStateReadsZero : Prop :=
  State.reset.AtReset ∧ State.reset.encRemaining = 0 ∧ ∀ (s : State) (a : Addr), s.AtReset → memRead s a = 0

/-- R124: an idle block keeps all its state. -/
def Obligations.IdleEdgeKeepsState : Prop :=
  ∀ s : State, s.pins.rstN = true → s.busy = false → s.pins.cmdValid = false →
    step s = .next { s with
      rdData := if s.pins.rdEn then some (memRead s s.pins.rdAddr) else none
      host := hostAfter s }

/-- R112, R116: no edge ends in a fault or a refusal, whatever the word and whatever ERR holds. -/
def Obligations.EveryStepAnswersNext : Prop := ∀ s : State, ∃ t, step s = .next t

/-- R32, R33: rd_data after an edge is the value at rd_addr in the state before it, and no value if rd_en was 0; the read port
changes no element of the block (only the model's draw counter can move beside rd_data, log 4). The first clause covers every
edge; that a read at a reset edge returns its value too is the model's reading of R33 (DEDUCED, log 9), not a rule of the spec. -/
def Obligations.ReadReturnsTheStateBeforeTheEdge : Prop :=
  (∀ s t : State, step s = .next t →
    t.rdData = if s.pins.rdEn then some (memRead s s.pins.rdAddr) else none) ∧
  (∀ (p : Pins) (s : State),
    SameInputs s (readPort p s) ∧ SameResult s (readPort p s) ∧ SameErrors s (readPort p s) ∧ SameEngine s (readPort p s) ∧
    (readPort p s).host = s.host)

/-- R48, R62: WAIT ends at the first edge at which STATUS shows BUSY = 0, and not before. -/
def Obligations.WaitEndsWhenNotBusy : Prop :=
  ∀ (s t : State) (rest : List HostOp), s.host = .wait :: rest → step s = .next t →
    (s.busy = true → t.host = .wait :: rest) ∧ (s.busy = false → t.host = rest)

/-! ### The control commands (40_control.md) -/

/-- R65. -/
def Obligations.NopChangesNothing : Prop :=
  (∀ s : State, exec .nop s = .next s) ∧
  (∀ c : Word, c.extractLsb' 24 8 = 0x00#8 →
    decode c = if c.extractLsb' 0 24 = 0 then .instr .nop else .illegalReserved) ∧
  (∀ (s : State) (c : Word), s.accepts c → s.busy = false)

/-- R66: CLEAR completes in every state with every element at its reset value. -/
def Obligations.ClearAppliesResetValues : Prop :=
  (∀ s : State, ∃ t, exec .clear s = .next t ∧ t.AtReset ∧ t.encRemaining = 0 ∧ SamePorts s t) ∧
  (∀ c : Word, c.extractLsb' 24 8 = 0x01#8 →
    decode c = if c.extractLsb' 0 24 = 0 then .instr .clear else .illegalReserved) ∧
  (∀ (s : State) (c : Word), s.accepts c → s.busy = false)

/-- R67: CLRERR completes in every state, clears ERR and ERRCODE and changes nothing else; with ERR = 0 it changes nothing. -/
def Obligations.ClrerrClearsTheErrorRecord : Prop :=
  (∀ s : State, exec .clrerr s = .next { s with err := false, errcode := 0 }) ∧
  (∀ s : State, s.ErrorRecordLegal → s.err = false → exec .clrerr s = .next s) ∧
  (∀ s t : State, exec .clrerr s = .next t → s.busy = false → s.resValid = false → statusWord t = 0) ∧
  (∀ c : Word, c.extractLsb' 24 8 = 0x07#8 →
    decode c = if c.extractLsb' 0 24 = 0 then .instr .clrerr else .illegalReserved)

/-! ### The input commands (41_input.md) -/

/-- R70: SETDIM completes in every state, writes W and H, clears PIXCNT and changes nothing else; DIM then reads {h, w}. -/
def Obligations.SetdimStartsANewRaster : Prop :=
  (∀ (w h : BitVec 8) (s : State), exec (.setdim w h) s = .next { s with w := w, h := h, pixcnt := 0 }) ∧
  (∀ (w h : BitVec 8) (s t : State), exec (.setdim w h) s = .next t →
    memRead t 0x00001 = h.zeroExtend 32 <<< 8 ||| w.zeroExtend 32 ∧ memRead t 0x00002 = 0) ∧
  (∀ c : Word, c.extractLsb' 24 8 = 0x02#8 →
    decode c = if c.extractLsb' 16 8 = 0 then .instr (.setdim (c.extractLsb' 0 8) (c.extractLsb' 8 8)) else .illegalReserved)

/-- R71: PLTPTR completes in every state, writes the pointer and changes nothing else. -/
def Obligations.PltptrSetsThePointer : Prop :=
  (∀ (p : BitVec 8) (s : State), exec (.pltptr p) s = .next { s with pltptr := p }) ∧
  (∀ c : Word, c.extractLsb' 24 8 = 0x03#8 →
    decode c = if c.extractLsb' 8 16 = 0 then .instr (.pltptr (c.extractLsb' 0 8)) else .illegalReserved)

/-- R72: PLTW completes in every state; the entry at PLTPTR holds {r, g, b} and is valid, the view shows it, and PLTPTR
advances modulo 256. Every word with opcode 0x04 is a PLTW. -/
def Obligations.PltwWritesTheEntryAtThePointer : Prop :=
  (∀ (r g b : BitVec 8) (s : State), ∃ t, exec (.pltw r g b) s = .next t ∧
    t.pltIn.read s.pltptr.toNat = rgbOf r g b ∧ t.pltValid.getLsbD s.pltptr.toNat = true ∧
    t.pltptr.toNat = (s.pltptr.toNat + 1) % 256 ∧
    memRead t (0x00100 + s.pltptr.zeroExtend 17) = 0x01000000 ||| (rgbOf r g b).zeroExtend 32) ∧
  (∀ c : Word, c.extractLsb' 24 8 = 0x04#8 →
    decode c = .instr (.pltw (c.extractLsb' 16 8) (c.extractLsb' 8 8) (c.extractLsb' 0 8)))

/-- R72, the frame: every other entry and its valid bit, every pixel, every result and every other register stay. -/
def Obligations.PltwChangesNothingElse : Prop :=
  ∀ (r g b : BitVec 8) (s t : State), exec (.pltw r g b) s = .next t →
    (∀ i, i ≠ s.pltptr.toNat → t.pltIn.read i = s.pltIn.read i ∧ t.pltValid.getLsbD i = s.pltValid.getLsbD i) ∧
    t.w = s.w ∧ t.h = s.h ∧ t.pixcnt = s.pixcnt ∧ (∀ k, t.raster.read k = s.raster.read k) ∧
    (∀ k, t.pltOut.read k = s.pltOut.read k) ∧ (∀ k, t.bb.read k = s.bb.read k) ∧
    SameResult s t ∧ SameErrors s t ∧ SameEngine s t ∧ SamePorts s t

/-- R73: with room in the raster PIXW completes, whatever the index: RASTER[PIXCNT] holds it and PIXCNT goes up by 1, without
wrapping. On a full raster, W×H = 0 included, it records RASTER_OVERFLOW (code 2) if no error is recorded (R111), and changes
nothing else. Its bits [23:16] are reserved. -/
def Obligations.PixwAppendsAPixel : Prop :=
  (∀ (idx : PixelIndex) (s : State), s.pixcnt.toNat < numPixels s.w s.h →
    ∃ t, exec (.pixw idx) s = .next t ∧ t.raster.read s.pixcnt.toNat = idx ∧ t.pixcnt.toNat = s.pixcnt.toNat + 1) ∧
  (∀ (idx : PixelIndex) (s : State), numPixels s.w s.h ≤ s.pixcnt.toNat →
    exec (.pixw idx) s = .next { s with err := true, errcode := if s.err then s.errcode else 2 }) ∧
  (∀ c : Word, c.extractLsb' 24 8 = 0x05#8 →
    decode c = if c.extractLsb' 16 8 = 0 then .instr (.pixw (c.extractLsb' 0 16)) else .illegalReserved)

/-- R73, the frame of the appending form. -/
def Obligations.PixwChangesNothingElse : Prop :=
  ∀ (idx : PixelIndex) (s t : State), s.pixcnt.toNat < numPixels s.w s.h → exec (.pixw idx) s = .next t →
    (∀ k, k ≠ s.pixcnt.toNat → t.raster.read k = s.raster.read k) ∧
    t.w = s.w ∧ t.h = s.h ∧ t.pltptr = s.pltptr ∧ t.pltValid = s.pltValid ∧ (∀ i, t.pltIn.read i = s.pltIn.read i) ∧
    (∀ k, t.pltOut.read k = s.pltOut.read k) ∧ (∀ k, t.bb.read k = s.bb.read k) ∧
    SameResult s t ∧ SameErrors s t ∧ SameEngine s t ∧ SamePorts s t

/-- R74: SETDIM, PLTPTR, PLTW and PIXW write none of BUSY, RES_VALID, BPP, NCOL, NBYTES, PLT_OUT, BB, and every result
address reads as before. -/
def Obligations.InputCommandsLeaveTheResult : Prop :=
  ∀ (i : Instr) (s t : State),
    ((∃ w h, i = .setdim w h) ∨ (∃ p, i = .pltptr p) ∨ (∃ r g b, i = .pltw r g b) ∨ (∃ idx, i = .pixw idx)) →
    exec i s = .next t →
    t.busy = s.busy ∧ SameResult s t ∧
    (s.busy = false → ∀ a : Addr, isResultAddr a.toNat = true → memRead t a = memRead s a)

/-- R65, R67, R70, R71, R73: NOP, CLRERR, SETDIM, PLTPTR and a PIXW on a full raster store to no array: every entry of RASTER,
PLT_IN, PLT_VALID, PLT_OUT and BB is as before, and so are the results' registers, the engine and the ports. -/
def Obligations.CommandsWithoutAStoreLeaveTheArrays : Prop :=
  ∀ (i : Instr) (s t : State),
    (i = .nop ∨ i = .clrerr ∨ (∃ w h, i = .setdim w h) ∨ (∃ p, i = .pltptr p) ∨
      (∃ idx, i = .pixw idx ∧ numPixels s.w s.h ≤ s.pixcnt.toNat)) →
    exec i s = .next t →
    (∀ k, t.raster.read k = s.raster.read k) ∧ (∀ k, t.pltIn.read k = s.pltIn.read k) ∧
    (∀ k, t.pltValid.getLsbD k = s.pltValid.getLsbD k) ∧ (∀ k, t.pltOut.read k = s.pltOut.read k) ∧
    (∀ k, t.bb.read k = s.bb.read k) ∧ t.bpp = s.bpp ∧ t.ncol = s.ncol ∧ t.nbytes = s.nbytes ∧ t.resValid = s.resValid ∧
    SameEngine s t ∧ SamePorts s t

/-! ### ENCODE and its completion (42_encode.md) -/

/-- R80: ENCODE completes in every state: BUSY is set, RES_VALID cleared, the completion is pending ENC_LATENCY ≥ 1 edges later
(the count left is one less than the latency, which is the model's way to hold it: log 3), and no input and no error changes.
What the result registers hold then is free (log 5), and nothing is said of it. -/
def Obligations.EncodeStartsTheEngine : Prop :=
  ∀ s : State, ∃ t, exec .encode s = .next t ∧ t.busy = true ∧ t.resValid = false ∧ SameInputs s t ∧ SameErrors s t ∧
    t.rdData = s.rdData ∧ t.host = s.host ∧ t.encRemaining + 1 = Config.encLatency s

/-- R18: BUSY rises only at the acceptance of ENCODE and falls only at its completion or a reset. -/
def Obligations.BusyLastsFromAcceptanceToCompletion : Prop :=
  ∀ s t : State, step s = .next t → s.pins.rstN = true →
    (s.busy = false → (t.busy = true ↔ ∃ c, s.accepts c ∧ decode c = .instr .encode)) ∧
    (s.busy = true → (t.busy = false ↔ s.encRemaining = 0))

/-- R29: while BUSY = 1 no input changes, and ENCODE itself changes none. -/
def Obligations.EngineLeavesTheInputs : Prop :=
  (∀ s t : State, step s = .next t → s.busy = true → s.pins.rstN = true → SameInputs s t) ∧
  (∀ s t : State, exec .encode s = .next t → SameInputs s t)

/-- R83 to R86, R115: the first failing check decides the error; a word about codes 3 to 6; with no check failing there is a
result. -/
def Obligations.FirstFailingCheckDecides : Prop :=
  (∀ i : EncodeInput, (i.w = 0 ∨ i.h = 0) → encodeFn i = .err .badDim) ∧
  (∀ i : EncodeInput, i.w ≠ 0 → i.h ≠ 0 → i.pixcnt.toNat ≠ numPixels i.w i.h → encodeFn i = .err .rasterIncomplete) ∧
  (∀ i : EncodeInput, i.Complete → (∃ k < numPixels i.w i.h, 255 < (i.raster.read k).toNat) →
    encodeFn i = .err .invalidPalette) ∧
  (∀ i : EncodeInput, i.Complete → (∀ k < numPixels i.w i.h, (i.raster.read k).toNat ≤ 255) →
    (∃ u, i.Uses u ∧ i.pltValid.getLsbD u.toNat = false) → encodeFn i = .err .paletteUndefined) ∧
  (∀ i : EncodeInput, i.Complete → (∀ k < numPixels i.w i.h, (i.raster.read k).toNat ≤ 255) →
    (∀ u, i.Uses u → i.pltValid.getLsbD u.toNat = true) → ∃ plt bpp bytes, encodeFn i = .ok plt bpp bytes) ∧
  ErrCode.badDim.code = 3 ∧ ErrCode.rasterIncomplete.code = 4 ∧ ErrCode.invalidPalette.code = 5 ∧
    ErrCode.paletteUndefined.code = 6

/-- R87: the success commit. The registers hold the numbers exactly (none is cut to its width), the windows' entries hold the
palette and the bytes, RES_VALID is set, and neither the error record nor an input changes. -/
def Obligations.SuccessCommitsTheResult : Prop :=
  ∀ (s : State) (plt : List Color) (bpp : Nat) (bytes : List Byte), s.pins.rstN = true → s.busy = true →
    s.encRemaining = 0 → encodeFn s.encodeInput = .ok plt bpp bytes →
    ∃ t, step s = .next t ∧ t.busy = false ∧ t.resValid = true ∧
      t.ncol.toNat = plt.length ∧ t.bpp.toNat = bpp ∧ t.nbytes.toNat = bytes.length ∧
      (∀ k, t.pltOut.lookup k = plt[k]?) ∧ (∀ j, t.bb.lookup j = bytes[j]?) ∧
      SameErrors s t ∧ SameInputs s t

/-- R88: the failure commit. No result is left, every result address reads 0, the error is recorded if it is the first, and no
input changes. -/
def Obligations.FailureLeavesNoResult : Prop :=
  ∀ (s : State) (e : ErrCode), s.pins.rstN = true → s.busy = true → s.encRemaining = 0 →
    encodeFn s.encodeInput = .err e →
    ∃ t, step s = .next t ∧ t.busy = false ∧ t.resValid = false ∧ t.ncol = 0 ∧ t.bpp = 0 ∧ t.nbytes = 0 ∧
      (∀ a : Addr, isResultAddr a.toNat = true → memRead t a = 0) ∧
      t.err = true ∧ t.errcode = (if s.err then s.errcode else e.code) ∧ SameInputs s t

/-- R81, R142: an accepted ENCODE that no reset cuts short is pending for exactly `encRemaining` more edges and completes at the
next one, from every state, with every program of the host. The count of edges is the model's way to hold ENC_LATENCY (log 3). -/
def Obligations.EncodeCompletesAtItsEdge : Prop :=
  ∀ s : State, s.busy = true → neverResets s.host →
    (∀ n ≤ s.encRemaining, ∃ t, run n s = .next t ∧ t.busy = true ∧ t.encRemaining = s.encRemaining - n ∧ SameInputs s t) ∧
    ∃ t, run (s.encRemaining + 1) s = .next t ∧ t.busy = false ∧ SameInputs s t ∧
      (t.resValid = true ↔ ∃ plt bpp bytes, encodeFn s.encodeInput = .ok plt bpp bytes)

/-- R89: two ENCODEs over equal inputs commit equal results, whatever their latencies, and whatever the host does meanwhile. -/
def Obligations.EqualInputsGiveEqualResults : Prop :=
  ∀ s₁ s₂ t₁ t₂ : State, s₁.busy = true → s₂.busy = true → neverResets s₁.host → neverResets s₂.host →
    s₁.encodeInput = s₂.encodeInput →
    run (s₁.encRemaining + 1) s₁ = .next t₁ → run (s₂.encRemaining + 1) s₂ = .next t₂ →
    t₁.resValid = t₂.resValid ∧ t₁.bpp = t₂.bpp ∧ t₁.ncol = t₂.ncol ∧ t₁.nbytes = t₂.nbytes ∧
    (t₁.resValid = true → t₁.pltOut = t₂.pltOut ∧ t₁.bb = t₂.bb)

/-! ### The palette (43_palette.md) and the integer functions (00_scope.md R8) -/

/-- R8: `ceil_div(a, b)` is the least q with q × b ≥ a, and `clog2(n)` the least k with 2^k ≥ n. -/
def Obligations.IntegerFunctionsAreLeast : Prop :=
  (∀ a b : Nat, 0 < b → a ≤ ceilDiv a b * b ∧ ∀ q, a ≤ q * b → ceilDiv a b ≤ q) ∧
  (∀ n : Nat, 1 ≤ n → n ≤ 2 ^ clog2 n ∧ ∀ k, n ≤ 2 ^ k → clog2 n ≤ k)

/-- R90: `colour(i) = 0xFF000000 OR zext_32(PLT_IN[i])`, which is {0xFF, R, G, B}. -/
def Obligations.ColourHasAlphaFF : Prop :=
  ∀ (m : Memory 24) (i : BitVec 8),
    colour m i = 0xFF000000#32 ||| (m.read i.toNat).zeroExtend 32 ∧
    (colour m i).extractLsb' 24 8 = 0xFF#8 ∧ (colour m i).extractLsb' 16 8 = (m.read i.toNat).extractLsb' 16 8 ∧
    (colour m i).extractLsb' 8 8 = (m.read i.toNat).extractLsb' 8 8 ∧
    (colour m i).extractLsb' 0 8 = (m.read i.toNat).extractLsb' 0 8

/-- R91: the used set is exactly the pixels' indices, without repeats, 1 to 256 of them in a non-empty image, and once the bound
check has passed `max_index` is its largest element. -/
def Obligations.UsedSetIsThePixelsIndices : Prop :=
  ∀ i : EncodeInput,
    (∀ u, u ∈ usedSet i ↔ i.Uses u) ∧ (usedSet i).Nodup ∧ (usedSet i).length ≤ 256 ∧
    (1 ≤ numPixels i.w i.h → 1 ≤ (usedSet i).length) ∧
    (1 ≤ numPixels i.w i.h → maxOf (rasterPixels i) ≤ 255 →
      ∃ u ∈ usedSet i, u.toNat = maxOf (rasterPixels i) ∧ ∀ v ∈ usedSet i, v.toNat ≤ u.toNat)

/-- R92: the palette of a result is strictly increasing and holds exactly the colours of used indices. -/
def Obligations.PaletteIsTheSortedUsedColours : Prop :=
  ∀ (i : EncodeInput) (plt : List Color) (bpp : Nat) (bytes : List Byte), encodeFn i = .ok plt bpp bytes →
    plt.Pairwise (fun a b => a.toNat < b.toNat) ∧ ∀ c, c ∈ plt ↔ ∃ u, i.Uses u ∧ colour i.pltIn u = c

/-- R93: `1 ≤ NCOL ≤ |USED| ≤ 256`. -/
def Obligations.PaletteLengthIsBounded : Prop :=
  ∀ (i : EncodeInput) (plt : List Color) (bpp : Nat) (bytes : List Byte), encodeFn i = .ok plt bpp bytes →
    1 ≤ plt.length ∧ plt.length ≤ (usedSet i).length ∧ (usedSet i).length ≤ 256

/-- R94, R96.3: a used index's new index is the one position of its colour, it fits in bpp bits, and two indices with one
colour get one new index. -/
def Obligations.RemapFindsTheColour : Prop :=
  ∀ (i : EncodeInput) (plt : List Color) (bpp : Nat) (bytes : List Byte), encodeFn i = .ok plt bpp bytes →
    ∀ u, i.Uses u →
      plt[remap plt i.pltIn u]? = some (colour i.pltIn u) ∧
      (∀ k, plt[k]? = some (colour i.pltIn u) → k = remap plt i.pltIn u) ∧
      remap plt i.pltIn u < 2 ^ bpp ∧
      ∀ v, colour i.pltIn v = colour i.pltIn u → remap plt i.pltIn v = remap plt i.pltIn u

/-- R95, R96.2: `bpp = clog2(NCOL)`, `2^bpp ≥ NCOL`, `2^(bpp−1) < NCOL` when bpp > 0, bpp = 0 exactly when NCOL = 1, and bpp ≤ 8. -/
def Obligations.BitWidthIsTheLeast : Prop :=
  ∀ (i : EncodeInput) (plt : List Color) (bpp : Nat) (bytes : List Byte), encodeFn i = .ok plt bpp bytes →
    bpp = clog2 plt.length ∧ plt.length ≤ 2 ^ bpp ∧ (0 < bpp → 2 ^ (bpp - 1) < plt.length) ∧ (bpp = 0 ↔ plt.length = 1) ∧ bpp ≤ 8

/-- R97: entries of PLT_IN and PLT_VALID at unused indices, and raster entries past the image, change no result. -/
def Obligations.UnusedEntriesChangeNothing : Prop :=
  ∀ i j : EncodeInput, i.w = j.w → i.h = j.h → i.pixcnt = j.pixcnt →
    (∀ k < numPixels i.w i.h, i.raster.read k = j.raster.read k) →
    (∀ u, i.Uses u → i.pltIn.read u.toNat = j.pltIn.read u.toNat ∧
      i.pltValid.getLsbD u.toNat = j.pltValid.getLsbD u.toNat) →
    encodeFn i = encodeFn j

/-! ### The packer (44_pack.md) -/

/-- R100, R101, R102: bit 7 − b of byte j is bit bpp − 1 − m of the new index of pixel N − 1 − t, where 8j + b = t × bpp + m;
past the last field it is 0. -/
def Obligations.PackedBitsAreReversedFields : Prop :=
  ∀ (i : EncodeInput) (plt : List Color) (bpp : Nat) (bytes : List Byte), encodeFn i = .ok plt bpp bytes →
    ∀ j < bytes.length, ∀ b < 8,
      (bytes.getD j 0).getLsbD (7 - b) =
        if 8 * j + b < numPixels i.w i.h * bpp then
          (i.newIndex plt (numPixels i.w i.h - 1 - (8 * j + b) / bpp)).testBit (bpp - 1 - (8 * j + b) % bpp)
        else false

/-- R103, R104: `NBYTES = ceil_div(N × bpp, 8)`, at most 65025; a single-colour image has bpp = 0 and no bytes. -/
def Obligations.ByteCountIsTheCeiling : Prop :=
  ∀ (i : EncodeInput) (plt : List Color) (bpp : Nat) (bytes : List Byte), encodeFn i = .ok plt bpp bytes →
    bytes.length = ceilDiv (numPixels i.w i.h * bpp) 8 ∧ bytes.length ≤ 65025 ∧ (plt.length = 1 → bpp = 0 ∧ bytes = [])

/-- R105: unpacking the bytes and undoing the reversal gives every pixel's new index back, and the palette entry there is the
pixel's colour. -/
def Obligations.UnpackingRecoversEveryPixel : Prop :=
  ∀ (i : EncodeInput) (plt : List Color) (bpp : Nat) (bytes : List Byte), encodeFn i = .ok plt bpp bytes →
    ∀ k < numPixels i.w i.h,
      (unpack bytes (numPixels i.w i.h) bpp)[numPixels i.w i.h - 1 - k]? = some (i.newIndex plt k) ∧
      plt[i.newIndex plt k]? = some (colour i.pltIn (indexByte (i.raster.read k)))

/-- R107: the source's worked example. -/
def Obligations.WorkedExampleEncodes : Prop :=
  encodeFn { w := 2, h := 1, pixcnt := 2, raster := [(0, 0), (1, 1)], pltIn := [(0, 0xFF0000), (1, 0x0000FF)], pltValid := 3 } =
    .ok [0xFF0000FF, 0xFFFF0000] 1 [0x40]

/-! ### Errors (60_exceptions.md) -/

/-- R111: the first error since the last clear is kept, and only CLRERR, CLEAR and reset clear it. -/
def Obligations.ErrorRecordIsSticky : Prop :=
  (∀ (e : ErrCode) (s : State), s.err = false → raiseError e s = { s with err := true, errcode := e.code }) ∧
  (∀ (e : ErrCode) (s : State), s.err = true → raiseError e s = s) ∧
  (∀ s t : State, step s = .next t → s.err = true → s.pins.rstN = true →
    (∀ c, s.accepts c → decode c ≠ .instr .clear ∧ decode c ≠ .instr .clrerr) →
    t.err = true ∧ t.errcode = s.errcode)

/-- R110: an error appears only with the code of its cause: an illegal word (1), PIXW on a full raster (2), or the completion
of an ENCODE with the code of its failing check (3 to 6). -/
def Obligations.ErrorsComeFromTheirCauses : Prop :=
  ∀ s t : State, step s = .next t → s.err = false → t.err = true →
    (∃ c, s.accepts c ∧ (decode c).instr? = none ∧ t.errcode = 1) ∨
    (∃ c idx, s.accepts c ∧ decode c = .instr (.pixw idx) ∧ numPixels s.w s.h ≤ s.pixcnt.toNat ∧ t.errcode = 2) ∨
    (∃ e, s.busy = true ∧ s.encRemaining = 0 ∧ encodeFn s.encodeInput = .err e ∧ t.errcode = e.code ∧
      3 ≤ t.errcode.toNat ∧ t.errcode.toNat ≤ 6)

/-! ### Who writes what (10_state.md) -/

/-- R12: W and H change only by SETDIM, and by CLEAR and reset. -/
def Obligations.DimensionsChangeOnlyBySetdim : Prop :=
  ∀ s t : State, step s = .next t → s.pins.rstN = true →
    (∀ c, s.accepts c → decode c ≠ .instr .clear ∧ ∀ w h, decode c ≠ .instr (.setdim w h)) →
    t.w = s.w ∧ t.h = s.h

/-- R16, R17: an entry's valid bit is cleared only by CLEAR and reset, and set only by a PLTW at that entry; the entry of a
valid index changes only by such a PLTW. -/
def Obligations.PaletteEntriesPersist : Prop :=
  ∀ s t : State, step s = .next t → s.pins.rstN = true → (∀ c, s.accepts c → decode c ≠ .instr .clear) →
    ∀ i < 256,
      (∀ c r g b, s.accepts c → decode c = .instr (.pltw r g b) → s.pltptr.toNat ≠ i) →
      t.pltValid.getLsbD i = s.pltValid.getLsbD i ∧ t.pltIn.lookup i = s.pltIn.lookup i

/-- R138: the result stands until the next ENCODE, CLEAR or reset, whatever else is accepted. -/
def Obligations.ResultIsASnapshot : Prop :=
  ∀ s t : State, step s = .next t → s.pins.rstN = true → s.busy = false →
    (∀ c, s.accepts c → decode c ≠ .instr .clear ∧ decode c ≠ .instr .encode) →
    SameResult s t ∧ ∀ a : Addr, isResultAddr a.toNat = true → memRead t a = memRead s a

/-! ### The read map (10_state.md R26, 20_memory.md R34 to R43) -/

/-- R26: the STATUS word, bit by bit, at every time. -/
def Obligations.StatusWordLayout : Prop :=
  ∀ s : State, memRead s 0x00000 = statusWord s ∧
    (statusWord s).getLsbD 0 = s.busy ∧ (statusWord s).getLsbD 1 = s.resValid ∧ (statusWord s).getLsbD 2 = s.err ∧
    (statusWord s).extractLsb' 3 5 = 0 ∧ (statusWord s).extractLsb' 8 4 = s.errcode ∧ (statusWord s).extractLsb' 12 20 = 0

/-- R35 to R38: the registers' own addresses; the first three at all times, the results while BUSY = 0. -/
def Obligations.RegistersReadBack : Prop :=
  ∀ s : State,
    memRead s 0x00001 = s.h.zeroExtend 32 <<< 8 ||| s.w.zeroExtend 32 ∧ (memRead s 0x00002).toNat = s.pixcnt.toNat ∧
    (memRead s 0x00003).toNat = s.pltptr.toNat ∧
    (s.busy = false → (memRead s 0x00004).toNat = s.bpp.toNat ∧ (memRead s 0x00005).toNat = s.ncol.toNat ∧
      (memRead s 0x00006).toNat = s.nbytes.toNat)

/-- R39, R40: the result windows while BUSY = 0, with the mask past NCOL and NBYTES. -/
def Obligations.ResultWindowsAreMasked : Prop :=
  ∀ s : State, s.busy = false →
    (∀ k : BitVec 8, memRead s (0x00200 + k.zeroExtend 17) = if k.toNat < s.ncol.toNat then s.pltOut.read k.toNat else 0) ∧
    (∀ j : BitVec 16, memRead s (0x10000 + j.zeroExtend 17) =
      if j.toNat < s.nbytes.toNat then (s.bb.read j.toNat).zeroExtend 32 else 0)

/-- R41: the PLT_IN view, at every time. -/
def Obligations.PaletteViewShowsValidEntries : Prop :=
  ∀ (s : State) (i : BitVec 8), memRead s (0x00100 + i.zeroExtend 17) =
    if s.pltValid.getLsbD i.toNat then 0x01000000 ||| (s.pltIn.read i.toNat).zeroExtend 32 else 0

/-- R42: a reserved address reads 0, at every time, and the read has no other effect: no error, and no draw. -/
def Obligations.ReservedAddressesReadZero : Prop :=
  ∀ (s : State) (a : Addr),
    (0x00007 ≤ a.toNat ∧ a.toNat ≤ 0x000FF) ∨ (0x00300 ≤ a.toNat ∧ a.toNat ≤ 0x0FFFF) →
    memRead s a = 0 ∧ readPort (Pins.read a) s = { s with rdData := some 0 }

/-- R43: what is not a result address reads the same whatever the results, the latency and the draws are: it stays defined while
BUSY = 1; a read draws a free value exactly if BUSY = 1 and the address is a result's. -/
def Obligations.OtherReadsStayDefinedWhileBusy : Prop :=
  (∀ (s t : State) (a : Addr), isResultAddr a.toNat = false → SameInputs s t → SameErrors s t → t.busy = s.busy →
    t.resValid = s.resValid → memRead t a = memRead s a) ∧
  (∀ (p : Pins) (s : State), (readPort p s).draws =
    if p.rdEn = true ∧ s.busy = true ∧ isResultAddr p.rdAddr.toNat = true then s.draws + 1 else s.draws)

/-! ### Invariants (10_state.md R28) -/

/-- The reset state satisfies R28 and the storage facts. -/
def Obligations.ResetIsLegal : Prop := State.reset.Inv

/-- R28: every step from a legal state, with every input, gives a legal state. -/
def Obligations.EveryStepKeepsTheInvariant : Prop := ∀ s t : State, s.Inv → step s = .next t → t.Inv

/-- R14, R16, R24, R25: in a legal state nothing reads a value the spec calls unspecified: an encode that gets past its checks
reads written pixels and written entries only, and the masked views show written entries only. -/
def Obligations.NothingUnwrittenIsRead : Prop :=
  ∀ s : State, s.Inv →
    (s.encodeInput.Complete → ∀ k < numPixels s.w s.h, s.raster.Written k) ∧
    (∀ plt bpp bytes, encodeFn s.encodeInput = .ok plt bpp bytes → ∀ u, s.encodeInput.Uses u → s.pltIn.Written u.toNat) ∧
    (∀ i < 256, s.pltValid.getLsbD i = true → s.pltIn.Written i) ∧
    (s.busy = false → (∀ k < s.ncol.toNat, s.pltOut.Written k) ∧ ∀ j < s.nbytes.toNat, s.bb.Written j)
end

