-- ==== Sys2Proof/Laws/Arith.lean ====
section
/-! SUPPORT. What the integer functions do: the sort's members, order and length, the logarithm's two bounds, the maximum. -/

namespace Sys2Proof.Machine

variable {n : Nat}

theorem mem_insertAscending {x y : BitVec n} {l : List (BitVec n)} : y ∈ insertAscending x l ↔ y = x ∨ y ∈ l := by
  induction l with
  | nil => simp [insertAscending]
  | cons z l ih =>
    simp only [insertAscending]
    split
    · simp
    · split
      · next h =>
        have : x = z := BitVec.eq_of_toNat_eq h
        subst this; simp
      · simp only [List.mem_cons, ih]; tauto

/-- A list's values rise strictly. -/
abbrev Rising (l : List (BitVec n)) : Prop := l.Pairwise fun a b => a.toNat < b.toNat

theorem insertAscending_rising {x : BitVec n} {l : List (BitVec n)} (h : Rising l) : Rising (insertAscending x l) := by
  induction l with
  | nil => simp [insertAscending]
  | cons z l ih =>
    have hz := List.pairwise_cons.1 h
    simp only [insertAscending]
    split
    · next hx =>
      refine List.pairwise_cons.2 ⟨fun y hy => ?_, h⟩
      rcases List.mem_cons.1 hy with rfl | hy
      · exact hx
      · exact Nat.lt_trans hx (hz.1 y hy)
    · split
      · exact h
      · refine List.pairwise_cons.2 ⟨fun y hy => ?_, ih hz.2⟩
        rcases mem_insertAscending.1 hy with rfl | hy
        · omega
        · exact hz.1 y hy

@[simp] theorem mem_sortAscending {y : BitVec n} {l : List (BitVec n)} : y ∈ sortAscending l ↔ y ∈ l := by
  induction l with
  | nil => simp [sortAscending]
  | cons x l ih => simp [sortAscending, mem_insertAscending, ih]

theorem sortAscending_rising (l : List (BitVec n)) : Rising (sortAscending l) := by
  induction l with
  | nil => simp [sortAscending]
  | cons x l ih => exact insertAscending_rising ih

theorem length_insertAscending_le (x : BitVec n) (l : List (BitVec n)) : (insertAscending x l).length ≤ l.length + 1 := by
  induction l with
  | nil => simp [insertAscending]
  | cons z l ih =>
    simp only [insertAscending]
    split
    · simp
    · split
      · simp
      · simpa using ih

theorem length_sortAscending_le (l : List (BitVec n)) : (sortAscending l).length ≤ l.length := by
  induction l with
  | nil => simp [sortAscending]
  | cons x l ih =>
    have := length_insertAscending_le x (sortAscending l)
    simp only [sortAscending, List.length_cons]
    omega

theorem Rising.nodup {l : List (BitVec n)} (h : Rising l) : l.Nodup := h.imp fun hab he => by simp [he] at hab

/-- A strictly rising list of `n`-bit values has at most 2^n of them. -/
theorem Rising.length_le {l : List (BitVec n)} (h : Rising l) : l.length ≤ 2 ^ n := by
  have h1 : (l.map BitVec.toNat).Nodup := by
    refine List.Nodup.map (fun a b => BitVec.eq_of_toNat_eq) h.nodup
  have h2 : (l.map BitVec.toNat) ⊆ List.range (2 ^ n) := by
    intro x hx
    obtain ⟨b, -, rfl⟩ := List.mem_map.1 hx
    exact List.mem_range.2 b.isLt
  have := (h1.subperm h2).length_le
  simpa using this

/-- The first value of a search that has room to find one: it is enough, and none from `k` on and below it is. -/
theorem clog2From_spec (fuel k m : Nat) (h : m ≤ 2 ^ (k + fuel)) :
    m ≤ 2 ^ clog2From fuel k m ∧ ∀ j, k ≤ j → m ≤ 2 ^ j → clog2From fuel k m ≤ j := by
  induction fuel generalizing k with
  | zero => exact ⟨by simpa [clog2From] using h, fun j hj _ => hj⟩
  | succ fuel ih =>
    simp only [clog2From]
    split
    · next hm => exact ⟨hm, fun j hj _ => hj⟩
    · next hm =>
      have hs := ih (k + 1) (by rwa [show k + 1 + fuel = k + (fuel + 1) by omega])
      refine ⟨hs.1, fun j hj hmj => hs.2 j ?_ hmj⟩
      rcases Nat.lt_or_ge k j with h1 | h1
      · exact h1
      · exact absurd (by rwa [Nat.le_antisymm hj h1]) hm

theorem maxOf_le_iff {l : List (BitVec n)} {b : Nat} : maxOf l ≤ b ↔ ∀ x ∈ l, x.toNat ≤ b := by
  induction l with
  | nil => simp [maxOf]
  | cons x l ih => simp [maxOf, ih]

end Sys2Proof.Machine
end

