-- ==== Sys2Proof/Laws/State.lean ====
section
/-! SUPPORT. What each shared update of State leaves in each field, so that no proof unfolds a record update. -/

namespace Sys2Proof.Machine

@[simp] theorem clearError_w (s : State) : (clearError s).w = s.w := rfl
@[simp] theorem clearError_h (s : State) : (clearError s).h = s.h := rfl
@[simp] theorem clearError_pixcnt (s : State) : (clearError s).pixcnt = s.pixcnt := rfl
@[simp] theorem clearError_raster (s : State) : (clearError s).raster = s.raster := rfl
@[simp] theorem clearError_pltptr (s : State) : (clearError s).pltptr = s.pltptr := rfl
@[simp] theorem clearError_pltIn (s : State) : (clearError s).pltIn = s.pltIn := rfl
@[simp] theorem clearError_pltValid (s : State) : (clearError s).pltValid = s.pltValid := rfl
@[simp] theorem clearError_busy (s : State) : (clearError s).busy = s.busy := rfl
@[simp] theorem clearError_resValid (s : State) : (clearError s).resValid = s.resValid := rfl
@[simp] theorem clearError_err (s : State) : (clearError s).err = false := rfl
@[simp] theorem clearError_errcode (s : State) : (clearError s).errcode = 0 := rfl
@[simp] theorem clearError_bpp (s : State) : (clearError s).bpp = s.bpp := rfl
@[simp] theorem clearError_ncol (s : State) : (clearError s).ncol = s.ncol := rfl
@[simp] theorem clearError_nbytes (s : State) : (clearError s).nbytes = s.nbytes := rfl
@[simp] theorem clearError_pltOut (s : State) : (clearError s).pltOut = s.pltOut := rfl
@[simp] theorem clearError_bb (s : State) : (clearError s).bb = s.bb := rfl
@[simp] theorem clearError_encRemaining (s : State) : (clearError s).encRemaining = s.encRemaining := rfl
@[simp] theorem clearError_rdData (s : State) : (clearError s).rdData = s.rdData := rfl
@[simp] theorem clearError_host (s : State) : (clearError s).host = s.host := rfl
@[simp] theorem clearError_draws (s : State) : (clearError s).draws = s.draws := rfl

@[simp] theorem applyReset_w (s : State) : (applyReset s).w = 0 := rfl
@[simp] theorem applyReset_h (s : State) : (applyReset s).h = 0 := rfl
@[simp] theorem applyReset_pixcnt (s : State) : (applyReset s).pixcnt = 0 := rfl
@[simp] theorem applyReset_raster (s : State) : (applyReset s).raster = [] := rfl
@[simp] theorem applyReset_pltptr (s : State) : (applyReset s).pltptr = 0 := rfl
@[simp] theorem applyReset_pltIn (s : State) : (applyReset s).pltIn = [] := rfl
@[simp] theorem applyReset_pltValid (s : State) : (applyReset s).pltValid = 0 := rfl
@[simp] theorem applyReset_busy (s : State) : (applyReset s).busy = false := rfl
@[simp] theorem applyReset_resValid (s : State) : (applyReset s).resValid = false := rfl
@[simp] theorem applyReset_err (s : State) : (applyReset s).err = false := rfl
@[simp] theorem applyReset_errcode (s : State) : (applyReset s).errcode = 0 := rfl
@[simp] theorem applyReset_bpp (s : State) : (applyReset s).bpp = 0 := rfl
@[simp] theorem applyReset_ncol (s : State) : (applyReset s).ncol = 0 := rfl
@[simp] theorem applyReset_nbytes (s : State) : (applyReset s).nbytes = 0 := rfl
@[simp] theorem applyReset_pltOut (s : State) : (applyReset s).pltOut = [] := rfl
@[simp] theorem applyReset_bb (s : State) : (applyReset s).bb = [] := rfl
@[simp] theorem applyReset_encRemaining (s : State) : (applyReset s).encRemaining = 0 := rfl
@[simp] theorem applyReset_rdData (s : State) : (applyReset s).rdData = s.rdData := rfl
@[simp] theorem applyReset_host (s : State) : (applyReset s).host = s.host := rfl
@[simp] theorem applyReset_draws (s : State) : (applyReset s).draws = s.draws := rfl

@[simp] theorem commitSuccess_w (plt : List Color) (width : Nat) (bytes : List Byte) (s : State) : (commitSuccess plt width bytes s).w = s.w := rfl
@[simp] theorem commitSuccess_h (plt : List Color) (width : Nat) (bytes : List Byte) (s : State) : (commitSuccess plt width bytes s).h = s.h := rfl
@[simp] theorem commitSuccess_pixcnt (plt : List Color) (width : Nat) (bytes : List Byte) (s : State) : (commitSuccess plt width bytes s).pixcnt = s.pixcnt := rfl
@[simp] theorem commitSuccess_raster (plt : List Color) (width : Nat) (bytes : List Byte) (s : State) : (commitSuccess plt width bytes s).raster = s.raster := rfl
@[simp] theorem commitSuccess_pltptr (plt : List Color) (width : Nat) (bytes : List Byte) (s : State) : (commitSuccess plt width bytes s).pltptr = s.pltptr := rfl
@[simp] theorem commitSuccess_pltIn (plt : List Color) (width : Nat) (bytes : List Byte) (s : State) : (commitSuccess plt width bytes s).pltIn = s.pltIn := rfl
@[simp] theorem commitSuccess_pltValid (plt : List Color) (width : Nat) (bytes : List Byte) (s : State) : (commitSuccess plt width bytes s).pltValid = s.pltValid := rfl
@[simp] theorem commitSuccess_busy (plt : List Color) (width : Nat) (bytes : List Byte) (s : State) : (commitSuccess plt width bytes s).busy = s.busy := rfl
@[simp] theorem commitSuccess_resValid (plt : List Color) (width : Nat) (bytes : List Byte) (s : State) : (commitSuccess plt width bytes s).resValid = true := rfl
@[simp] theorem commitSuccess_err (plt : List Color) (width : Nat) (bytes : List Byte) (s : State) : (commitSuccess plt width bytes s).err = s.err := rfl
@[simp] theorem commitSuccess_errcode (plt : List Color) (width : Nat) (bytes : List Byte) (s : State) : (commitSuccess plt width bytes s).errcode = s.errcode := rfl
@[simp] theorem commitSuccess_bpp (plt : List Color) (width : Nat) (bytes : List Byte) (s : State) : (commitSuccess plt width bytes s).bpp = BitVec.ofNat 4 width := rfl
@[simp] theorem commitSuccess_ncol (plt : List Color) (width : Nat) (bytes : List Byte) (s : State) : (commitSuccess plt width bytes s).ncol = BitVec.ofNat 9 plt.length := rfl
@[simp] theorem commitSuccess_nbytes (plt : List Color) (width : Nat) (bytes : List Byte) (s : State) : (commitSuccess plt width bytes s).nbytes = BitVec.ofNat 16 bytes.length := rfl
@[simp] theorem commitSuccess_pltOut (plt : List Color) (width : Nat) (bytes : List Byte) (s : State) : (commitSuccess plt width bytes s).pltOut = Memory.ofValues 0 plt := rfl
@[simp] theorem commitSuccess_bb (plt : List Color) (width : Nat) (bytes : List Byte) (s : State) : (commitSuccess plt width bytes s).bb = Memory.ofValues 0 bytes := rfl
@[simp] theorem commitSuccess_encRemaining (plt : List Color) (width : Nat) (bytes : List Byte) (s : State) : (commitSuccess plt width bytes s).encRemaining = s.encRemaining := rfl
@[simp] theorem commitSuccess_rdData (plt : List Color) (width : Nat) (bytes : List Byte) (s : State) : (commitSuccess plt width bytes s).rdData = s.rdData := rfl
@[simp] theorem commitSuccess_host (plt : List Color) (width : Nat) (bytes : List Byte) (s : State) : (commitSuccess plt width bytes s).host = s.host := rfl
@[simp] theorem commitSuccess_draws (plt : List Color) (width : Nat) (bytes : List Byte) (s : State) : (commitSuccess plt width bytes s).draws = s.draws := rfl

@[simp] theorem raiseError_w (e : ErrCode) (s : State) : (raiseError e s).w = s.w := by unfold raiseError; split <;> rfl
@[simp] theorem raiseError_h (e : ErrCode) (s : State) : (raiseError e s).h = s.h := by unfold raiseError; split <;> rfl
@[simp] theorem raiseError_pixcnt (e : ErrCode) (s : State) : (raiseError e s).pixcnt = s.pixcnt := by unfold raiseError; split <;> rfl
@[simp] theorem raiseError_raster (e : ErrCode) (s : State) : (raiseError e s).raster = s.raster := by unfold raiseError; split <;> rfl
@[simp] theorem raiseError_pltptr (e : ErrCode) (s : State) : (raiseError e s).pltptr = s.pltptr := by unfold raiseError; split <;> rfl
@[simp] theorem raiseError_pltIn (e : ErrCode) (s : State) : (raiseError e s).pltIn = s.pltIn := by unfold raiseError; split <;> rfl
@[simp] theorem raiseError_pltValid (e : ErrCode) (s : State) : (raiseError e s).pltValid = s.pltValid := by unfold raiseError; split <;> rfl
@[simp] theorem raiseError_busy (e : ErrCode) (s : State) : (raiseError e s).busy = s.busy := by unfold raiseError; split <;> rfl
@[simp] theorem raiseError_resValid (e : ErrCode) (s : State) : (raiseError e s).resValid = s.resValid := by unfold raiseError; split <;> rfl
@[simp] theorem raiseError_err (e : ErrCode) (s : State) : (raiseError e s).err = true := by unfold raiseError; split <;> simp_all
@[simp] theorem raiseError_errcode (e : ErrCode) (s : State) :
    (raiseError e s).errcode = if s.err then s.errcode else e.code := by unfold raiseError; split <;> simp_all
@[simp] theorem raiseError_bpp (e : ErrCode) (s : State) : (raiseError e s).bpp = s.bpp := by unfold raiseError; split <;> rfl
@[simp] theorem raiseError_ncol (e : ErrCode) (s : State) : (raiseError e s).ncol = s.ncol := by unfold raiseError; split <;> rfl
@[simp] theorem raiseError_nbytes (e : ErrCode) (s : State) : (raiseError e s).nbytes = s.nbytes := by unfold raiseError; split <;> rfl
@[simp] theorem raiseError_pltOut (e : ErrCode) (s : State) : (raiseError e s).pltOut = s.pltOut := by unfold raiseError; split <;> rfl
@[simp] theorem raiseError_bb (e : ErrCode) (s : State) : (raiseError e s).bb = s.bb := by unfold raiseError; split <;> rfl
@[simp] theorem raiseError_encRemaining (e : ErrCode) (s : State) : (raiseError e s).encRemaining = s.encRemaining := by unfold raiseError; split <;> rfl
@[simp] theorem raiseError_rdData (e : ErrCode) (s : State) : (raiseError e s).rdData = s.rdData := by unfold raiseError; split <;> rfl
@[simp] theorem raiseError_host (e : ErrCode) (s : State) : (raiseError e s).host = s.host := by unfold raiseError; split <;> rfl
@[simp] theorem raiseError_draws (e : ErrCode) (s : State) : (raiseError e s).draws = s.draws := by unfold raiseError; split <;> rfl

@[simp] theorem commitFailure_w (e : ErrCode) (s : State) : (commitFailure e s).w = s.w := by simp [commitFailure]
@[simp] theorem commitFailure_h (e : ErrCode) (s : State) : (commitFailure e s).h = s.h := by simp [commitFailure]
@[simp] theorem commitFailure_pixcnt (e : ErrCode) (s : State) : (commitFailure e s).pixcnt = s.pixcnt := by simp [commitFailure]
@[simp] theorem commitFailure_raster (e : ErrCode) (s : State) : (commitFailure e s).raster = s.raster := by simp [commitFailure]
@[simp] theorem commitFailure_pltptr (e : ErrCode) (s : State) : (commitFailure e s).pltptr = s.pltptr := by simp [commitFailure]
@[simp] theorem commitFailure_pltIn (e : ErrCode) (s : State) : (commitFailure e s).pltIn = s.pltIn := by simp [commitFailure]
@[simp] theorem commitFailure_pltValid (e : ErrCode) (s : State) : (commitFailure e s).pltValid = s.pltValid := by simp [commitFailure]
@[simp] theorem commitFailure_busy (e : ErrCode) (s : State) : (commitFailure e s).busy = s.busy := by simp [commitFailure]
@[simp] theorem commitFailure_resValid (e : ErrCode) (s : State) : (commitFailure e s).resValid = false := by simp [commitFailure]
@[simp] theorem commitFailure_err (e : ErrCode) (s : State) : (commitFailure e s).err = true := by simp [commitFailure]
@[simp] theorem commitFailure_errcode (e : ErrCode) (s : State) :
    (commitFailure e s).errcode = if s.err then s.errcode else e.code := by simp [commitFailure]
@[simp] theorem commitFailure_bpp (e : ErrCode) (s : State) : (commitFailure e s).bpp = 0 := by simp [commitFailure]
@[simp] theorem commitFailure_ncol (e : ErrCode) (s : State) : (commitFailure e s).ncol = 0 := by simp [commitFailure]
@[simp] theorem commitFailure_nbytes (e : ErrCode) (s : State) : (commitFailure e s).nbytes = 0 := by simp [commitFailure]
@[simp] theorem commitFailure_pltOut (e : ErrCode) (s : State) : (commitFailure e s).pltOut = s.pltOut := by simp [commitFailure]
@[simp] theorem commitFailure_bb (e : ErrCode) (s : State) : (commitFailure e s).bb = s.bb := by simp [commitFailure]
@[simp] theorem commitFailure_encRemaining (e : ErrCode) (s : State) : (commitFailure e s).encRemaining = s.encRemaining := by simp [commitFailure]
@[simp] theorem commitFailure_rdData (e : ErrCode) (s : State) : (commitFailure e s).rdData = s.rdData := by simp [commitFailure]
@[simp] theorem commitFailure_host (e : ErrCode) (s : State) : (commitFailure e s).host = s.host := by simp [commitFailure]
@[simp] theorem commitFailure_draws (e : ErrCode) (s : State) : (commitFailure e s).draws = s.draws := by simp [commitFailure]

@[simp] theorem readPort_w (p : Pins) (s : State) : (readPort p s).w = s.w := by unfold readPort; split <;> rfl
@[simp] theorem readPort_h (p : Pins) (s : State) : (readPort p s).h = s.h := by unfold readPort; split <;> rfl
@[simp] theorem readPort_pixcnt (p : Pins) (s : State) : (readPort p s).pixcnt = s.pixcnt := by unfold readPort; split <;> rfl
@[simp] theorem readPort_raster (p : Pins) (s : State) : (readPort p s).raster = s.raster := by unfold readPort; split <;> rfl
@[simp] theorem readPort_pltptr (p : Pins) (s : State) : (readPort p s).pltptr = s.pltptr := by unfold readPort; split <;> rfl
@[simp] theorem readPort_pltIn (p : Pins) (s : State) : (readPort p s).pltIn = s.pltIn := by unfold readPort; split <;> rfl
@[simp] theorem readPort_pltValid (p : Pins) (s : State) : (readPort p s).pltValid = s.pltValid := by unfold readPort; split <;> rfl
@[simp] theorem readPort_busy (p : Pins) (s : State) : (readPort p s).busy = s.busy := by unfold readPort; split <;> rfl
@[simp] theorem readPort_resValid (p : Pins) (s : State) : (readPort p s).resValid = s.resValid := by unfold readPort; split <;> rfl
@[simp] theorem readPort_err (p : Pins) (s : State) : (readPort p s).err = s.err := by unfold readPort; split <;> rfl
@[simp] theorem readPort_errcode (p : Pins) (s : State) : (readPort p s).errcode = s.errcode := by unfold readPort; split <;> rfl
@[simp] theorem readPort_bpp (p : Pins) (s : State) : (readPort p s).bpp = s.bpp := by unfold readPort; split <;> rfl
@[simp] theorem readPort_ncol (p : Pins) (s : State) : (readPort p s).ncol = s.ncol := by unfold readPort; split <;> rfl
@[simp] theorem readPort_nbytes (p : Pins) (s : State) : (readPort p s).nbytes = s.nbytes := by unfold readPort; split <;> rfl
@[simp] theorem readPort_pltOut (p : Pins) (s : State) : (readPort p s).pltOut = s.pltOut := by unfold readPort; split <;> rfl
@[simp] theorem readPort_bb (p : Pins) (s : State) : (readPort p s).bb = s.bb := by unfold readPort; split <;> rfl
@[simp] theorem readPort_encRemaining (p : Pins) (s : State) : (readPort p s).encRemaining = s.encRemaining := by unfold readPort; split <;> rfl
@[simp] theorem readPort_rdData (p : Pins) (s : State) :
    (readPort p s).rdData = if p.rdEn then some (memRead s p.rdAddr) else none := by unfold readPort; split <;> rfl
@[simp] theorem readPort_host (p : Pins) (s : State) : (readPort p s).host = s.host := by unfold readPort; split <;> rfl
@[simp] theorem readPort_draws (p : Pins) (s : State) :
    (readPort p s).draws = if p.rdEn && drawsOnRead s p.rdAddr then s.draws + 1 else s.draws := by
  unfold readPort; split <;> simp_all

@[simp] theorem portsEdge_w (s : State) : (portsEdge s).w = s.w := by simp [portsEdge]
@[simp] theorem portsEdge_h (s : State) : (portsEdge s).h = s.h := by simp [portsEdge]
@[simp] theorem portsEdge_pixcnt (s : State) : (portsEdge s).pixcnt = s.pixcnt := by simp [portsEdge]
@[simp] theorem portsEdge_raster (s : State) : (portsEdge s).raster = s.raster := by simp [portsEdge]
@[simp] theorem portsEdge_pltptr (s : State) : (portsEdge s).pltptr = s.pltptr := by simp [portsEdge]
@[simp] theorem portsEdge_pltIn (s : State) : (portsEdge s).pltIn = s.pltIn := by simp [portsEdge]
@[simp] theorem portsEdge_pltValid (s : State) : (portsEdge s).pltValid = s.pltValid := by simp [portsEdge]
@[simp] theorem portsEdge_busy (s : State) : (portsEdge s).busy = s.busy := by simp [portsEdge]
@[simp] theorem portsEdge_resValid (s : State) : (portsEdge s).resValid = s.resValid := by simp [portsEdge]
@[simp] theorem portsEdge_err (s : State) : (portsEdge s).err = s.err := by simp [portsEdge]
@[simp] theorem portsEdge_errcode (s : State) : (portsEdge s).errcode = s.errcode := by simp [portsEdge]
@[simp] theorem portsEdge_bpp (s : State) : (portsEdge s).bpp = s.bpp := by simp [portsEdge]
@[simp] theorem portsEdge_ncol (s : State) : (portsEdge s).ncol = s.ncol := by simp [portsEdge]
@[simp] theorem portsEdge_nbytes (s : State) : (portsEdge s).nbytes = s.nbytes := by simp [portsEdge]
@[simp] theorem portsEdge_pltOut (s : State) : (portsEdge s).pltOut = s.pltOut := by simp [portsEdge]
@[simp] theorem portsEdge_bb (s : State) : (portsEdge s).bb = s.bb := by simp [portsEdge]
@[simp] theorem portsEdge_encRemaining (s : State) : (portsEdge s).encRemaining = s.encRemaining := by simp [portsEdge]
@[simp] theorem portsEdge_rdData (s : State) :
    (portsEdge s).rdData = if (hostPins s.host).rdEn then some (memRead s (hostPins s.host).rdAddr) else none := by
  simp [portsEdge]
@[simp] theorem portsEdge_host (s : State) : (portsEdge s).host = hostAfter s := rfl
@[simp] theorem portsEdge_draws (s : State) :
    (portsEdge s).draws =
      if (hostPins s.host).rdEn && drawsOnRead s (hostPins s.host).rdAddr then s.draws + 1 else s.draws := by
  simp [portsEdge]

end Sys2Proof.Machine
end

