-- ==== Sys2Proof/Laws/Encode.lean ====
section
/-! SUPPORT. What EncodeFn answers, said once: past its checks it is `Ok`, and an `Ok` passed them. And a run cut in two. -/

namespace Sys2Proof.Machine

/-- The pixels of the image are the raster's entries below W × H. -/
theorem mem_rasterPixels {i : EncodeInput} {x : PixelIndex} :
    x ∈ rasterPixels i ↔ ∃ k < numPixels i.w i.h, i.raster.read k = x := by
  simp [rasterPixels]

/-- Everything an `Ok` says: every check passed, and the three results are those of R90 to R102. -/
theorem encodeFn_ok {i : EncodeInput} {plt : List Color} {bpp : Nat} {bytes : List Byte}
    (h : encodeFn i = .ok plt bpp bytes) :
    i.Complete ∧ maxOf (rasterPixels i) ≤ Config.maxIndex ∧
    (∀ u ∈ usedSet i, i.pltValid.getLsbD u.toNat = true) ∧
    plt = compactedPalette (usedSet i) i.pltIn ∧ bpp = bitWidth plt ∧
    bytes = pack bpp (traversal (remappedRaster i plt)) := by
  unfold encodeFn at h
  split at h
  · cases h
  next h1 =>
  split at h
  · cases h
  next h2 =>
  split at h
  · cases h
  next h3 =>
  split at h
  · cases h
  next h4 =>
  simp only [encodeChecked, EncodeResult.ok.injEq] at h
  obtain ⟨rfl, rfl, rfl⟩ := h
  rw [not_or] at h1
  refine ⟨⟨h1.1, h1.2, by simpa using h2⟩, Nat.le_of_not_lt h3, fun u hu => ?_, rfl, rfl, rfl⟩
  by_contra hc
  exact h4 (List.any_eq_true.2 ⟨u, hu, by simpa using hc⟩)

/-- `m + n` steps are `m` steps, then `n`. -/
theorem run_add {m n : Nat} {s t : State} (h : run m s = .next t) : run (m + n) s = run n t := by
  induction m generalizing s with
  | zero => cases h; simp
  | succ m ih =>
    rw [Nat.succ_add, run]
    rw [run] at h
    split at h
    · exact ih h
    · cases h
    · cases h

/-- When a word is accepted (20_memory.md R31). -/
theorem accepts_iff {s : State} {c : Word} :
    s.accepts c ↔ (hostPins s.host).rstN = true ∧ s.busy = false ∧ (hostPins s.host).cmdValid = true ∧
      (hostPins s.host).cmdData = c := by
  simp [State.accepts, State.pins, cmdReady]
  tauto

/-- An edge that accepts a word executes it. -/
theorem step_of_accepts {s : State} {c : Word} (h : s.accepts c) : step s = execute (decode c) (portsEdge s) := by
  obtain ⟨h1, h2, h3, rfl⟩ := accepts_iff.1 h
  simp [step, clockEdge, blockEdge, h1, h2, h3]

end Sys2Proof.Machine
end

