-- ==== Sys2Proof/Laws/Memory.lean ====
section
/-! SUPPORT. The laws of the storage arrays: a write is read back, leaves every other entry alone and keeps the canonical form. -/

namespace Sys2Proof.Machine

variable {w : Nat}

@[simp] theorem Memory.lookup_nil (k : Nat) : Memory.lookup ([] : Memory w) k = none := rfl

theorem Memory.lookup_cons (a k : Nat) (x : BitVec w) (m : Memory w) :
    Memory.lookup ((a, x) :: m) k = if a = k then some x else Memory.lookup m k := rfl

@[simp] theorem Memory.lookup_write_same (m : Memory w) (k : Nat) (v : BitVec w) :
    Memory.lookup (Memory.write m k v) k = some v := by
  induction m with
  | nil => simp [Memory.write, Memory.lookup_cons]
  | cons c m ih =>
    obtain ⟨a, x⟩ := c
    simp only [Memory.write]
    split
    · simp [Memory.lookup_cons]
    · split
      · simp [Memory.lookup_cons]
      · rw [Memory.lookup_cons, if_neg (by omega), ih]

theorem Memory.lookup_write_other (m : Memory w) {k j : Nat} (v : BitVec w) (h : j ≠ k) :
    Memory.lookup (Memory.write m k v) j = Memory.lookup m j := by
  induction m with
  | nil => simp [Memory.write, Memory.lookup_cons, Ne.symm h]
  | cons c m ih =>
    obtain ⟨a, x⟩ := c
    simp only [Memory.write]
    split
    · rw [Memory.lookup_cons, if_neg (Ne.symm h)]
    · split
      · next hk => subst hk; rw [Memory.lookup_cons, if_neg (Ne.symm h), Memory.lookup_cons, if_neg (Ne.symm h)]
      · rw [Memory.lookup_cons, Memory.lookup_cons, ih]

@[simp] theorem Memory.read_write_same (m : Memory w) (k : Nat) (v : BitVec w) :
    Memory.read (Memory.write m k v) k = v := by simp [Memory.read]

theorem Memory.read_write_other (m : Memory w) {k j : Nat} (v : BitVec w) (h : j ≠ k) :
    Memory.read (Memory.write m k v) j = Memory.read m j := by
  simp [Memory.read, Memory.lookup_write_other m v h]

theorem Memory.mem_write {m : Memory w} {k : Nat} {v : BitVec w} {c : Nat × BitVec w}
    (h : c ∈ Memory.write m k v) : c = (k, v) ∨ c ∈ m := by
  induction m with
  | nil => simpa [Memory.write] using h
  | cons d m ih =>
    obtain ⟨a, x⟩ := d
    simp only [Memory.write] at h
    split at h
    · simpa using h
    · split at h
      · rcases List.mem_cons.1 h with h | h
        · exact .inl h
        · exact .inr (List.mem_cons_of_mem _ h)
      · rcases List.mem_cons.1 h with h | h
        · exact .inr (h ▸ List.mem_cons_self)
        · exact (ih h).imp_right (List.mem_cons_of_mem _)

/-- A write keeps the canonical form of an array that has the entry. -/
theorem Memory.write_wf {n : Nat} {m : Memory w} {k : Nat} (v : BitVec w) (hk : k < n) (h : Memory.wf n m) :
    Memory.wf n (Memory.write m k v) := by
  refine ⟨?_, fun c hc => ?_⟩
  · have h1 := h.1
    clear h
    induction m with
    | nil => simp [Memory.write]
    | cons d m ih =>
      obtain ⟨a, x⟩ := d
      simp only [List.map_cons, List.pairwise_cons] at h1
      simp only [Memory.write]
      split
      · next hka =>
        simp only [List.map_cons, List.pairwise_cons, List.mem_cons]
        refine ⟨?_, h1⟩
        rintro b (rfl | hb)
        · exact hka
        · exact Nat.lt_trans hka (h1.1 b hb)
      · split
        · next hka => subst hka; simpa using h1
        · next h2 h3 =>
          simp only [List.map_cons, List.pairwise_cons]
          refine ⟨fun b hb => ?_, ih h1.2⟩
          obtain ⟨c, hc, rfl⟩ := List.mem_map.1 hb
          rcases Memory.mem_write hc with rfl | hc
          · show a < k; omega
          · exact h1.1 _ (List.mem_map_of_mem hc)
  · rcases Memory.mem_write hc with rfl | hc
    · exact hk
    · exact h.2 c hc

/-- Entry `k + j` of an array made from values is value `j`; every other entry is unspecified. -/
theorem Memory.lookup_ofValues (k : Nat) (vs : List (BitVec w)) (j : Nat) :
    Memory.lookup (Memory.ofValues k vs) j = if k ≤ j then vs[j - k]? else none := by
  induction vs generalizing k with
  | nil => simp [Memory.ofValues]
  | cons v vs ih =>
    rw [Memory.ofValues, Memory.lookup_cons, ih]
    split
    · next h => subst h; simp
    · next h =>
      split
      · next h2 => rw [if_pos (by omega), show j - k = (j - (k + 1)) + 1 by omega, List.getElem?_cons_succ]
      · next h2 => rw [if_neg (by omega)]

theorem Memory.ofValues_keys {k : Nat} {vs : List (BitVec w)} {c : Nat × BitVec w} (h : c ∈ Memory.ofValues k vs) :
    k ≤ c.1 ∧ c.1 < k + vs.length := by
  induction vs generalizing k with
  | nil => simp [Memory.ofValues] at h
  | cons v vs ih =>
    rcases List.mem_cons.1 h with rfl | h
    · simp
    · have := ih h
      simp only [List.length_cons]
      omega

theorem Memory.ofValues_wf {n : Nat} (vs : List (BitVec w)) (h : vs.length ≤ n) : Memory.wf n (Memory.ofValues 0 vs) := by
  refine ⟨?_, fun c hc => by have := Memory.ofValues_keys hc; omega⟩
  suffices ∀ k, ((Memory.ofValues k vs).map Prod.fst).Pairwise (· < ·) from this 0
  clear h
  induction vs with
  | nil => intro k; simp [Memory.ofValues]
  | cons v vs ih =>
    intro k
    simp only [Memory.ofValues, List.map_cons, List.pairwise_cons]
    refine ⟨fun b hb => ?_, ih (k + 1)⟩
    obtain ⟨c, hc, rfl⟩ := List.mem_map.1 hb
    have := (Memory.ofValues_keys hc).1
    omega

theorem Memory.nil_wf (n : Nat) : Memory.wf n ([] : Memory w) :=
  ⟨List.Pairwise.nil, fun _ h => absurd h List.not_mem_nil⟩

end Sys2Proof.Machine
end

