-- ==== Sys2Proof/Laws/Pack.lean ====
section
/-! SUPPORT. The bit packer's pieces: a field's bits, the stream's bits, a byte's bits, and a number read back from its bits. -/

namespace Sys2Proof.Machine

@[simp] theorem length_fieldBits (bpp v : Nat) : (fieldBits bpp v).length = bpp := by simp [fieldBits]

theorem fieldBits_getD {bpp m : Nat} (v : Nat) (h : m < bpp) : (fieldBits bpp v).getD m false = v.testBit (bpp - 1 - m) := by
  simp [fieldBits, List.getD, h]

@[simp] theorem length_streamBits (bpp : Nat) (vs : List Nat) : (streamBits bpp vs).length = vs.length * bpp := by
  induction vs with
  | nil => simp [streamBits]
  | cons v vs ih =>
    simp only [streamBits, List.flatMap_cons, List.length_append, length_fieldBits, List.length_cons] at ih ⊢
    rw [ih, Nat.succ_mul]; omega

/-- Stream bit t × bpp + m is bit bpp − 1 − m of field t. -/
theorem streamBits_field {bpp m : Nat} (vs : List Nat) (t : Nat) (ht : t < vs.length) (hm : m < bpp) :
    (streamBits bpp vs).getD (t * bpp + m) false = (vs.getD t 0).testBit (bpp - 1 - m) := by
  induction vs generalizing t with
  | nil => simp at ht
  | cons v vs ih =>
    rw [streamBits, List.flatMap_cons]
    cases t with
    | zero =>
      rw [Nat.zero_mul, Nat.zero_add, List.getD_append _ _ _ _ (by simpa using hm), fieldBits_getD v hm]
      rfl
    | succ t =>
      rw [List.getD_append_right _ _ _ _ (by rw [length_fieldBits, Nat.succ_mul]; omega)]
      have e : (t + 1) * bpp + m - (fieldBits bpp v).length = t * bpp + m := by
        rw [length_fieldBits, Nat.succ_mul]; omega
      rw [e]
      exact ih t (by simpa using ht)

/-- A number read from its bits, most significant first, after the number `acc`: its bits are the list's, then acc's. -/
theorem testBit_foldl_bits (l : List Bool) (acc k : Nat) :
    (l.foldl (fun a b => 2 * a + b.toNat) acc).testBit k =
      if k < l.length then l.getD (l.length - 1 - k) false else acc.testBit (k - l.length) := by
  induction l generalizing acc with
  | nil => simp
  | cons b l ih =>
    rw [List.foldl_cons, ih]
    by_cases h1 : k < l.length
    · rw [if_pos h1, if_pos (by simp; omega)]
      have e : (b :: l).length - 1 - k = (l.length - 1 - k) + 1 := by simp; omega
      rw [e, List.getD_cons_succ]
    · rw [if_neg h1]
      by_cases h2 : k = l.length
      · subst h2
        rw [if_pos (by simp), Nat.sub_self]
        have e : (b :: l).length - 1 - l.length = 0 := by simp
        rw [e, List.getD_cons_zero]
        cases b <;> simp [Nat.testBit_zero]
      · rw [if_neg (by simp; omega)]
        obtain ⟨d, hd⟩ : ∃ d, k - l.length = d + 1 := ⟨k - l.length - 1, by omega⟩
        have e : k - (b :: l).length = d := by simp; omega
        rw [hd, e, Nat.testBit_succ]
        congr 1
        cases b
        · simp
        · simp; omega

/-- Bit 7 − b of a byte is bit b of its group, and 0 where the group has none. -/
theorem byteOfBits_getLsbD {b : Nat} (bits : List Bool) (hb : b < 8) :
    (byteOfBits bits).getLsbD (7 - b) = bits.getD b false := by
  have e : (List.range 8).foldl (fun acc b => 2 * acc + (bits.getD b false).toNat) 0 =
      ((List.range 8).map fun b => bits.getD b false).foldl (fun a b => 2 * a + b.toNat) 0 := by rw [List.foldl_map]
  rw [byteOfBits, e, BitVec.getLsbD_ofNat, testBit_foldl_bits]
  have h8 : 7 - b < 8 := by omega
  simp only [List.length_map, List.length_range, h8, decide_true, Bool.true_and, if_true]
  rw [show 8 - 1 - (7 - b) = b by omega]
  simp [List.getD, hb]

@[simp] theorem length_bytesOfBits (n : Nat) (bits : List Bool) : (bytesOfBits n bits).length = n := by
  induction n generalizing bits with
  | zero => rfl
  | succ n ih => simp [bytesOfBits, ih]

/-- Bit 7 − b of byte j is bit 8j + b of the stream, and 0 past its end. -/
theorem bytesOfBits_getLsbD {n j b : Nat} (bits : List Bool) (hj : j < n) (hb : b < 8) :
    ((bytesOfBits n bits).getD j 0).getLsbD (7 - b) = bits.getD (8 * j + b) false := by
  induction n generalizing bits j with
  | zero => omega
  | succ n ih =>
    rw [bytesOfBits]
    cases j with
    | zero =>
      rw [List.getD_cons_zero, byteOfBits_getLsbD _ hb]
      simp [List.getD, hb]
    | succ j =>
      rw [List.getD_cons_succ, ih _ (by omega)]
      simp only [List.getD, List.getElem?_drop]
      rw [show 8 + (8 * j + b) = 8 * (j + 1) + b by omega]

end Sys2Proof.Machine
end

