-- ==== Sys2Proof/Laws/PerInstr.lean ====
section
/-! SUPPORT. A fact about each command as syntax, constructor by constructor: its encoding lies in its own row of the opcode
map (30_encoding.md R57). -/

namespace Sys2Proof.Laws.EncodesInRow

/-- The encoding of `i` has the match bits of the row with its mnemonic. -/
def Statement (i : Instr) : Prop :=
  ∃ row ∈ opcodeTable, row.mnemonic = i.mnemonic ∧ Sys2Proof.encode i &&& row.mask = row.matchBits

theorem nop : Statement .nop := ⟨⟨"NOP", 0x00000000, 0xFFFFFFFF⟩, by simp [opcodeTable], rfl, by decide⟩

theorem clear : Statement .clear := ⟨⟨"CLEAR", 0x01000000, 0xFFFFFFFF⟩, by simp [opcodeTable], rfl, by decide⟩

theorem setdim (w h : BitVec 8) : Statement (.setdim w h) := by
  refine ⟨⟨"SETDIM", 0x02000000, 0xFFFF0000⟩, by simp [opcodeTable], rfl, ?_⟩
  apply BitVec.eq_of_getLsbD_eq
  intro i hi
  interval_cases i <;> simp [Sys2Proof.encode]

theorem pltptr (p : BitVec 8) : Statement (.pltptr p) := by
  refine ⟨⟨"PLTPTR", 0x03000000, 0xFFFFFF00⟩, by simp [opcodeTable], rfl, ?_⟩
  apply BitVec.eq_of_getLsbD_eq
  intro i hi
  interval_cases i <;> simp [Sys2Proof.encode]

theorem pltw (r g b : BitVec 8) : Statement (.pltw r g b) := by
  refine ⟨⟨"PLTW", 0x04000000, 0xFF000000⟩, by simp [opcodeTable], rfl, ?_⟩
  apply BitVec.eq_of_getLsbD_eq
  intro i hi
  interval_cases i <;> simp [Sys2Proof.encode]

theorem pixw (idx : PixelIndex) : Statement (.pixw idx) := by
  refine ⟨⟨"PIXW", 0x05000000, 0xFFFF0000⟩, by simp [opcodeTable], rfl, ?_⟩
  apply BitVec.eq_of_getLsbD_eq
  intro i hi
  interval_cases i <;> simp [Sys2Proof.encode]

theorem encode : Statement .encode := ⟨⟨"ENCODE", 0x06000000, 0xFFFFFFFF⟩, by simp [opcodeTable], rfl, by decide⟩

theorem clrerr : Statement .clrerr := ⟨⟨"CLRERR", 0x07000000, 0xFFFFFFFF⟩, by simp [opcodeTable], rfl, by decide⟩

end Sys2Proof.Laws.EncodesInRow
end

