-- ==== Sys2Proof/Laws/Port.lean ====
section
/-! SUPPORT. The composed read words as shifts and ORs. Simplifying a bit of `x ++ y` needs the two lemmas used here before the
width is written as one number. -/

namespace Sys2Proof.Machine

/-- Bit `i` of a concatenation that is widened to 32 bits. -/
theorem getLsbD_zeroExtend_append {m n : Nat} (x : BitVec m) (y : BitVec n) (i : Nat) :
    ((x ++ y).zeroExtend 32).getLsbD i = (decide (i < 32) && if i < n then y.getLsbD i else x.getLsbD (i - n)) := by
  simp only [BitVec.getLsbD_setWidth, BitVec.getLsbD_append]

/-- DIM's word (20_memory.md R35). -/
theorem zeroExtend_append_bytes (h w : BitVec 8) :
    ((h ++ w).zeroExtend 32 : Word) = h.zeroExtend 32 <<< 8 ||| w.zeroExtend 32 := by
  apply BitVec.eq_of_getLsbD_eq
  intro i hi
  simp only [BitVec.getLsbD_setWidth, BitVec.getLsbD_append]
  interval_cases i <;> simp

/-- A valid entry's word in the PLT_IN view (R41). -/
theorem zeroExtend_one_append (x : Rgb) : ((1#1 ++ x).zeroExtend 32 : Word) = 0x01000000 ||| x.zeroExtend 32 := by
  apply BitVec.eq_of_getLsbD_eq
  intro i hi
  simp only [BitVec.getLsbD_setWidth, BitVec.getLsbD_append]
  interval_cases i <;> simp

end Sys2Proof.Machine
end

