-- ==== Sys2Proof/Laws/Step.lean ====
section
/-! SUPPORT. What one step can do, said once: the four things an edge can be, the engine's two, and what a completion leaves. -/

namespace Sys2Proof.Machine

/-- PIXW either appends or raises RASTER_OVERFLOW. -/
theorem execPixw_cases {idx : PixelIndex} {s t : State} (h : execPixw idx s = .next t) :
    (s.pixcnt.toNat < numPixels s.w s.h ∧
      t = { s with raster := s.raster.write s.pixcnt.toNat idx, pixcnt := s.pixcnt + 1 }) ∨
    (¬ s.pixcnt.toNat < numPixels s.w s.h ∧ t = raiseError .rasterOverflow s) := by
  unfold execPixw at h
  split at h
  · next hlt => exact .inl ⟨hlt, (Host.Outcome.next.inj h).symm⟩
  · next hge => exact .inr ⟨hge, (Host.Outcome.next.inj h).symm⟩

/-- No meaning ends in a fault or a refusal. -/
theorem exec_answers (i : Instr) (s : State) : ∃ t, exec i s = .next t := by
  cases i with
  | pixw idx =>
    show ∃ t, execPixw idx s = .next t
    unfold execPixw
    split
    · exact ⟨_, rfl⟩
    · exact ⟨_, rfl⟩
  | nop => exact ⟨_, rfl⟩
  | clear => exact ⟨_, rfl⟩
  | setdim w h => exact ⟨_, rfl⟩
  | pltptr p => exact ⟨_, rfl⟩
  | pltw r g b => exact ⟨_, rfl⟩
  | encode => exact ⟨_, rfl⟩
  | clrerr => exact ⟨_, rfl⟩

/-- The four things an edge can be: reset, the engine's, an acceptance (of a command or of an ILLEGAL word), or idle. -/
theorem step_cases {s t : State} (h : step s = .next t) :
    ((hostPins s.host).rstN = false ∧ t = applyReset (portsEdge s)) ∨
    ((hostPins s.host).rstN = true ∧ s.busy = true ∧ t = engineEdge (portsEdge s)) ∨
    ((hostPins s.host).rstN = true ∧ s.busy = false ∧ (hostPins s.host).cmdValid = true ∧
      execute (decode (hostPins s.host).cmdData) (portsEdge s) = .next t) ∨
    ((hostPins s.host).rstN = true ∧ s.busy = false ∧ (hostPins s.host).cmdValid = false ∧ t = portsEdge s) := by
  unfold step clockEdge blockEdge at h
  rw [portsEdge_busy] at h
  split at h
  · next hr => exact .inl ⟨hr, (Host.Outcome.next.inj h).symm⟩
  · next hr =>
    have hr : (hostPins s.host).rstN = true := by simpa using hr
    split at h
    · next hb => exact .inr (.inl ⟨hr, hb, (Host.Outcome.next.inj h).symm⟩)
    · next hb =>
      have hb : s.busy = false := by simpa using hb
      split at h
      · next hv => exact .inr (.inr (.inl ⟨hr, hb, hv, h⟩))
      · next hv => exact .inr (.inr (.inr ⟨hr, hb, by simpa using hv, (Host.Outcome.next.inj h).symm⟩))

/-- What an accepted word does: the command's meaning, or ILLEGAL_CMD. -/
theorem execute_cases {d : Decoded} {s t : State} (h : execute d s = .next t) :
    (∃ i, d = .instr i ∧ exec i s = .next t) ∨ (d.instr? = none ∧ t = raiseError .illegalCmd s) := by
  cases d with
  | instr i => exact .inl ⟨i, rfl, h⟩
  | illegalOpcode => exact .inr ⟨rfl, (Host.Outcome.next.inj h).symm⟩
  | illegalReserved => exact .inr ⟨rfl, (Host.Outcome.next.inj h).symm⟩

/-- The engine's two edges: the completion, or one edge fewer to go. -/
theorem engineEdge_cases (s : State) :
    (s.encRemaining = 0 ∧ engineEdge s = completeEncode s) ∨
    (∃ n, s.encRemaining = n + 1 ∧ engineEdge s = { s with encRemaining := n }) := by
  unfold engineEdge
  split
  · next h => exact .inl ⟨h, rfl⟩
  · next n h => exact .inr ⟨n, h, rfl⟩

/-- The two ways an encode completes. -/
theorem completeEncode_cases (s : State) :
    (∃ plt width bytes, encodeFn s.encodeInput = .ok plt width bytes ∧
      completeEncode s = { commitSuccess plt width bytes s with busy := false, encRemaining := 0 }) ∨
    (∃ e, encodeFn s.encodeInput = .err e ∧
      completeEncode s = { commitFailure e s with busy := false, encRemaining := 0 }) := by
  unfold completeEncode
  split
  · next plt width bytes h => exact .inl ⟨plt, width, bytes, h, rfl⟩
  · next e h => exact .inr ⟨e, h, rfl⟩

section
variable (s : State)

@[simp] theorem completeEncode_busy : (completeEncode s).busy = false := by unfold completeEncode; split <;> rfl
@[simp] theorem completeEncode_encRemaining : (completeEncode s).encRemaining = 0 := by unfold completeEncode; split <;> rfl
@[simp] theorem completeEncode_w : (completeEncode s).w = s.w := by unfold completeEncode; split <;> simp
@[simp] theorem completeEncode_h : (completeEncode s).h = s.h := by unfold completeEncode; split <;> simp
@[simp] theorem completeEncode_pixcnt : (completeEncode s).pixcnt = s.pixcnt := by unfold completeEncode; split <;> simp
@[simp] theorem completeEncode_raster : (completeEncode s).raster = s.raster := by unfold completeEncode; split <;> simp
@[simp] theorem completeEncode_pltptr : (completeEncode s).pltptr = s.pltptr := by unfold completeEncode; split <;> simp
@[simp] theorem completeEncode_pltIn : (completeEncode s).pltIn = s.pltIn := by unfold completeEncode; split <;> simp
@[simp] theorem completeEncode_pltValid : (completeEncode s).pltValid = s.pltValid := by unfold completeEncode; split <;> simp
@[simp] theorem completeEncode_rdData : (completeEncode s).rdData = s.rdData := by unfold completeEncode; split <;> simp
@[simp] theorem completeEncode_host : (completeEncode s).host = s.host := by unfold completeEncode; split <;> simp
@[simp] theorem completeEncode_draws : (completeEncode s).draws = s.draws := by unfold completeEncode; split <;> simp

end

end Sys2Proof.Machine
end

