-- ==== Sys2Proof/Tests/Slice0.lean ====
section
/-! SUPPORT. The model's own tests. Every expected value is the spec's: 95_test_vectors.md's tables, 30_encoding.md's encodings,
or worked by hand from the rule named. Then, for every obligation with hypotheses, a witness that meets them together. -/

namespace Sys2Proof.Tests

open Machine

/-- The state of a step that goes on. -/
def stateOf (o : Host.Outcome State Fault Refusal) : Option State :=
  match o with
  | .next t => some t
  | .fault _ => none
  | .refused _ => none

/-- An idle block whose host offers `c`. -/
def offering (c : Word) : State := { State.reset with host := [.offer c] }

/-- A field of the state after `s`'s next step. -/
def after {α : Type} (f : State → α) (s : State) : Option α := (stateOf (step s)).map f

/-- A block with this image and palette (entries 0, 1, ... valid), at the edge of an ENCODE's completion. -/
def encoding (w h : BitVec 8) (pixels : List PixelIndex) (palette : List Rgb) : State :=
  { State.reset with
    w := w
    h := h
    pixcnt := BitVec.ofNat 16 pixels.length
    raster := Memory.ofValues 0 pixels
    pltptr := BitVec.ofNat 8 palette.length
    pltIn := Memory.ofValues 0 palette
    pltValid := BitVec.ofNat 256 (2 ^ palette.length - 1)
    busy := true }

/-- The end state of S1 (95_test_vectors.md section 1), as it lists it. -/
def s1 : State :=
  { State.reset with
    w := 2, h := 1, pixcnt := 2, raster := [(0, 0), (1, 1)], pltptr := 2,
    pltIn := [(0, 0xFF0000), (1, 0x0000FF)], pltValid := 3, resValid := true, bpp := 1, ncol := 2, nbytes := 1,
    pltOut := [(0, 0xFF0000FF), (1, 0xFFFF0000)], bb := [(0, 0x40)] }

/-- S1 while its ENCODE is in progress, at the completion edge. -/
def s1Busy : State := encoding 2 1 [0, 1] [0xFF0000, 0x0000FF]

/-! ### Well-formed lines (30_encoding.md R60: an operand out of its range is rejected) -/

theorem test_setdim_limits : (AsmLine.setdim 255 255).wellFormed = true := by decide
theorem test_setdim_width_refused : assembleLine (.setdim 256 1) = none := by decide
theorem test_setdim_height_refused : assembleLine (.setdim 1 256) = none := by decide
theorem test_pltptr_refused : assembleLine (.pltptr 256) = none := by decide
theorem test_pltw_refused : assembleLine (.pltw 0x1000000) = none := by decide
theorem test_pltw_red_refused : assembleLine (.pltwParts 256 0 0) = none := by decide
theorem test_pltw_green_refused : assembleLine (.pltwParts 0 256 0) = none := by decide
theorem test_pltw_blue_refused : assembleLine (.pltwParts 0 0 256) = none := by decide
theorem test_pixw_refused : assembleLine (.pixw 65536) = none := by decide
theorem test_word_refused : assembleLine (.word 0x100000000) = none := by decide
theorem test_loadplt_pointer_refused : assembleLine (.loadplt 256 [0]) = none := by decide
theorem test_loadplt_empty_refused : assembleLine (.loadplt 0 []) = none := by decide
theorem test_loadplt_colour_refused : assembleLine (.loadplt 0 [0, 0x1000000]) = none := by decide
theorem test_loadpix_empty_refused : assembleLine (.loadpix []) = none := by decide
theorem test_loadpix_index_refused : assembleLine (.loadpix [0, 65536]) = none := by decide
theorem test_image_width_refused : assembleLine (.image 256 1) = none := by decide
theorem test_image_height_refused : assembleLine (.image 1 256) = none := by decide
theorem test_rd_refused : assembleLine (.rd 0x20000) = none := by decide

/-- `SETDIM 2, 1 ; x` and `PIXW 0x10` as text, a decimal and a hexadecimal operand (R60). -/
theorem test_text_lines :
    assembleText ['S', 'E', 'T', 'D', 'I', 'M', ' ', '2', ',', ' ', '1', ' ', ';', ' ', 'x', '\n',
      'P', 'I', 'X', 'W', ' ', '0', 'x', '1', '0'] = some [.offer 0x02000102, .offer 0x05000010] := by decide

/-! ### Decoding: words written out from R51 to R57's fields, opcode in [31:24] -/

theorem test_decode_nop : decode 0b00000000000000000000000000000000 = .instr .nop := by decide
theorem test_decode_clear : decode 0b00000001000000000000000000000000 = .instr .clear := by decide
/-- w = 5 in [7:0], h = 3 in [15:8]. -/
theorem test_decode_setdim : decode 0b00000010000000000000001100000101 = .instr (.setdim 5 3) := by decide
theorem test_decode_pltptr : decode 0b00000011000000000000000010000001 = .instr (.pltptr 129) := by decide
/-- r = 1, g = 2, b = 4. -/
theorem test_decode_pltw : decode 0b00000100000000010000001000000100 = .instr (.pltw 1 2 4) := by decide
theorem test_decode_pixw : decode 0b00000101000000001000000000000001 = .instr (.pixw 32769) := by decide
theorem test_decode_encode : decode 0b00000110000000000000000000000000 = .instr .encode := by decide
theorem test_decode_clrerr : decode 0b00000111000000000000000000000000 = .instr .clrerr := by decide

/-- 95_test_vectors.md 2.1's illegal words. -/
theorem test_decode_illegal :
    decode 0x00000001 = .illegalReserved ∧ decode 0x01800000 = .illegalReserved ∧ decode 0x02010203 = .illegalReserved ∧
    decode 0x030001FF = .illegalReserved ∧ decode 0x05010000 = .illegalReserved ∧ decode 0x06000010 = .illegalReserved ∧
    decode 0x07000001 = .illegalReserved ∧ decode 0x08000000 = .illegalOpcode ∧ decode 0xFF000000 = .illegalOpcode := by decide

/-- The interface's own reading of a table word, with bit 0 the least significant bit. -/
theorem test_decode_table_word : decodeTableWord 32 0x02000102 = some (.setdim 2 1) ∧ decodeTableWord 32 0x08000000 = none := by
  decide

/-! ### One step for each command (95_test_vectors.md 2.1 to 2.3) -/

theorem test_nop : step { State.reset with pixcnt := 3, host := [.offer 0] } = .next { State.reset with pixcnt := 3 } := by rfl
/-- CLEAR from the end of S1: every read address of the table in 2.2 reads 0. -/
theorem test_clear :
    after (fun t => [memRead t 0, memRead t 1, memRead t 5, memRead t 0x100, memRead t 0x200, memRead t 0x10000])
      { s1 with host := [.offer 0x01000000] } = some [0, 0, 0, 0, 0, 0] := by decide
theorem test_setdim :
    after (fun t => (memRead t 1, t.pixcnt)) { s1 with host := [.offer 0x02000102] } = some (0x00000102, 0) := by decide
theorem test_setdim_leaves_results :
    after (fun t => (memRead t 5, memRead t 0x10000, t.resValid)) { s1 with host := [.offer 0x02000505] } =
      some (2, 0x40, true) := by decide
theorem test_pltptr : after (fun t => memRead t 3) (offering 0x030000FF) = some 0x000000FF := by decide
theorem test_pltptr_reserved_bit :
    after (fun t => (memRead t 3, memRead t 0)) (offering 0x030001FF) = some (0, 0x00000104) := by decide
theorem test_pltw_wraps :
    after (fun t => (memRead t 0x1FF, memRead t 3)) { State.reset with pltptr := 255, host := [.offer 0x04111111] } =
      some (0x01111111, 0) := by decide
theorem test_pltw_overwrites :
    after (fun t => memRead t 0x105)
      { State.reset with pltptr := 5, pltIn := [(5, 1)], pltValid := 32, host := [.offer 0x04000002] } =
      some 0x01000002 := by decide
theorem test_pixw_stores_large_index :
    after (fun t => (memRead t 2, memRead t 0, t.raster)) { State.reset with w := 2, h := 1, host := [.offer 0x0500012C] } =
      some (1, 0, [(0, 300)]) := by decide
theorem test_pixw_without_room : after (fun t => (memRead t 0, memRead t 2)) (offering 0x05000000) = some (0x00000204, 0) := by
  decide
/-- Program 4: while BUSY = 1, STATUS reads 1 and an offered PLTW is held. -/
theorem test_encode_sets_busy : after (fun t => memRead t 0) { s1 with host := [.offer 0x06000000] } = some 0x00000001 := by
  decide
theorem test_clrerr :
    after (fun t => memRead t 0) { State.reset with err := true, errcode := 2, host := [.offer 0x07000000] } = some 0 := by decide
theorem test_clrerr_reserved_bit :
    after (fun t => memRead t 0) { State.reset with err := true, errcode := 2, host := [.offer 0x07000001] } =
      some 0x00000204 := by decide

/-- A word placed for the next step is the one it runs, from reset (0x0200FFFF of 2.1: DIM reads 0x0000FFFF). -/
theorem test_fetched_word_runs :
    after (fun t => (memRead t 1, t.host)) (State.reset.withFetchWord 32 0x0200FFFF) = some (0x0000FFFF, []) := by decide

/-! ### The completion (95_test_vectors.md 2.4 to 2.7) -/

theorem test_e1_bad_dim : after (fun t => memRead t 0) (encoding 0 0 [] []) = some 0x00000304 := by decide
theorem test_e3_incomplete : after (fun t => memRead t 0) (encoding 2 1 [0] [0]) = some 0x00000404 := by decide
theorem test_e5_index_bound : after (fun t => memRead t 0) (encoding 2 1 [0, 300] []) = some 0x00000504 := by decide
theorem test_e6_undefined_entry : after (fun t => memRead t 0) (encoding 2 1 [0, 1] [0]) = some 0x00000604 := by decide
theorem test_s1 : step s1Busy = .next s1 := by rfl
theorem test_s2_single_colour :
    after (fun t => (t.pltOut, t.bpp, t.nbytes, memRead t 0x10000)) (encoding 1 1 [0] [0x123456]) =
      some ([(0, 0xFF123456)], 0, 0, 0) := by decide
theorem test_p_b_merge :
    after (fun t => (t.pltOut, t.bb)) (encoding 3 1 [0, 1, 2] [0x808080, 0x808080, 0]) =
      some ([(0, 0xFF000000), (1, 0xFF808080)], [(0, 0x60)]) := by decide
theorem test_k4_across_bytes :
    after (fun t => (t.bpp, t.bb)) (encoding 5 1 [0, 1, 2, 3, 4] [0, 1, 2, 3, 4]) = some (3, [(0, 0x8D), (1, 0x10)]) := by decide
theorem test_k3_orientation : after State.bb (encoding 2 2 [0, 1, 2, 3] [0, 1, 2, 3]) = some [(0, 0xE4)] := by decide
/-- 44_pack.md R106's unpacker on K4. -/
theorem test_k4_unpack : unpack [0x8D, 0x10] 5 3 = [4, 3, 2, 1, 0] := by decide
theorem test_s1_read_map :
    [0x100, 0x101, 0x102, 0x200, 0x201, 0x202, 0x10000, 0x10001, 0x1FFFF, 0x0FFFF].map (memRead s1) =
      [0x01FF0000, 0x010000FF, 0, 0xFF0000FF, 0xFFFF0000, 0, 0x40, 0, 0, 0] := by decide

/-! ### Witnesses: for every obligation with hypotheses, inputs that meet them together -/

theorem witness_OpcodeMap :
    (∃ row ∈ opcodeTable, (0x04ABCDEF : Word) &&& row.mask = row.matchBits) ∧
    8 ≤ ((0x08000000 : Word).extractLsb' 24 8).toNat ∧ 8 ≤ ((0xFF000000 : Word).extractLsb' 24 8).toNat := by decide

theorem witness_Operands :
    decode 0x0200FFFF = .instr (.setdim 255 255) ∧ decode 0x030000FF = .instr (.pltptr 255) ∧
    decode 0x04FFFFFF = .instr (.pltw 255 255 255) ∧ decode 0x0500FFFF = .instr (.pixw 65535) := by decide

/-- Illegal words and accepted commands: an idle block that is offered one. -/
theorem witness_accepts (c : Word) :
    (offering c).accepts c ∧ (offering c).busy = false ∧ (offering c).host = .offer c :: [] := ⟨⟨rfl, rfl, rfl⟩, rfl, rfl⟩

theorem witness_illegal : (decode 0x08000000).instr? = none ∧ (decode 0x00000001).instr? = none := by decide

/-- Accepting an illegal word with an error recorded already, and with none. -/
theorem witness_illegal_accepted :
    ({ offering 0x08000000 with err := true, errcode := 2 } : State).accepts 0x08000000 ∧
    (offering 0x08000000).accepts 0x08000000 := ⟨⟨rfl, rfl, rfl⟩, rfl, rfl, rfl⟩

theorem witness_held :
    ({ s1Busy with host := [.offer 0x04000000] } : State).busy = true ∧
    ({ s1Busy with host := [.offer 0x04000000] } : State).pins.rstN = true ∧
    ∃ t, step { s1Busy with host := [.offer 0x04000000] } = .next t ∧ t.host = [.offer 0x04000000] :=
  ⟨rfl, rfl, _, rfl, rfl⟩

theorem witness_reset_edge : ({ s1Busy with host := [.drive Pins.resetting] } : State).pins.rstN = false := by rfl

theorem witness_AtReset : ({ State.reset with draws := 7, rdData := some 1 } : State).AtReset :=
  ⟨rfl, rfl, rfl, rfl, rfl, rfl, rfl, rfl, rfl, rfl, rfl, rfl, rfl, rfl, rfl, rfl⟩

theorem witness_idle : s1.pins.rstN = true ∧ s1.busy = false ∧ s1.pins.cmdValid = false := by decide

/-- A read beside the completion edge sees the state before it: STATUS still shows BUSY = 1. -/
theorem witness_read :
    ∃ t, step { s1Busy with host := [.drive (Pins.read 0)] } = .next t ∧ t.rdData = some 1 ∧ t.busy = false :=
  ⟨_, rfl, rfl, rfl⟩

/-- A read at a reset edge (log 9): STATUS as it was before the reset, while the block is reset. -/
theorem witness_read_at_reset :
    ∃ t, step { s1 with host := [.drive { Pins.read 0 with rstN := false }] } = .next t ∧ t.rdData = some 2 ∧
      t.resValid = false := ⟨_, rfl, rfl, rfl⟩

theorem witness_wait :
    (∃ t, step { s1Busy with host := [.wait] } = .next t) ∧ s1Busy.busy = true ∧
    (∃ t, step { s1 with host := [.wait] } = .next t) ∧ s1.busy = false := ⟨⟨_, rfl⟩, rfl, ⟨_, rfl⟩, rfl⟩

/-- Each opcode with its reserved bits clear, and with one set. -/
theorem witness_opcodes :
    (0x00000000 : Word).extractLsb' 24 8 = 0x00#8 ∧ (0x00000001 : Word).extractLsb' 24 8 = 0x00#8 ∧
    (0x01000000 : Word).extractLsb' 24 8 = 0x01#8 ∧ (0x01800000 : Word).extractLsb' 24 8 = 0x01#8 ∧
    (0x02000102 : Word).extractLsb' 24 8 = 0x02#8 ∧ (0x02010203 : Word).extractLsb' 24 8 = 0x02#8 ∧
    (0x030000FF : Word).extractLsb' 24 8 = 0x03#8 ∧ (0x030001FF : Word).extractLsb' 24 8 = 0x03#8 ∧
    (0x04FFFFFF : Word).extractLsb' 24 8 = 0x04#8 ∧ (0x0500FFFF : Word).extractLsb' 24 8 = 0x05#8 ∧
    (0x05010000 : Word).extractLsb' 24 8 = 0x05#8 ∧ (0x07000000 : Word).extractLsb' 24 8 = 0x07#8 ∧
    (0x07000001 : Word).extractLsb' 24 8 = 0x07#8 := by decide

theorem witness_clrerr :
    s1.ErrorRecordLegal ∧ s1.err = false ∧
    ∃ t, exec .clrerr { State.reset with err := true, errcode := 2 } = .next t ∧ State.reset.busy = false ∧
      State.reset.resValid = false :=
  ⟨⟨fun _ => rfl, fun h => by cases h⟩, rfl, _, rfl, rfl, rfl⟩

theorem witness_setdim : ∃ t, exec (.setdim 255 255) s1 = .next t := ⟨_, rfl⟩

/-- The entries of PLTW's frame: the pointer's neighbours at the wrap. -/
theorem witness_pltw_frame :
    (∃ t, exec (.pltw 1 2 3) { s1 with pltptr := 255 } = .next t) ∧ (0 : Nat) ≠ (255 : BitVec 8).toNat ∧
    (254 : Nat) ≠ (255 : BitVec 8).toNat := ⟨⟨_, rfl⟩, by decide, by decide⟩

/-- Room for the last pixel, then none; and none at all when W×H = 0. -/
theorem witness_pixw :
    ({ s1 with pixcnt := 1 } : State).pixcnt.toNat < numPixels s1.w s1.h ∧
    (∃ t, exec (.pixw 65535) { s1 with pixcnt := 1 } = .next t) ∧ (0 : Nat) ≠ ({ s1 with pixcnt := 1 } : State).pixcnt.toNat ∧
    numPixels s1.w s1.h ≤ s1.pixcnt.toNat ∧ numPixels State.reset.w State.reset.h ≤ State.reset.pixcnt.toNat :=
  ⟨by decide, ⟨_, rfl⟩, by decide, by decide, by decide⟩

/-- Each command of the grouped frames runs; the first and last address of each group of result addresses is one. -/
theorem witness_input_commands :
    (∃ t, exec (.setdim 1 1) s1 = .next t) ∧ (∃ t, exec (.pltptr 9) s1 = .next t) ∧ (∃ t, exec (.pltw 1 2 3) s1 = .next t) ∧
    (∃ t, exec (.pixw 9) s1 = .next t) ∧ s1.busy = false ∧
    [0x00004, 0x00005, 0x00006, 0x00200, 0x002FF, 0x10000, 0x1FFFF].all isResultAddr = true :=
  ⟨⟨_, rfl⟩, ⟨_, rfl⟩, ⟨_, rfl⟩, ⟨_, rfl⟩, rfl, by decide⟩

theorem witness_no_store :
    (∃ t, exec .nop s1 = .next t) ∧ (∃ t, exec .clrerr s1 = .next t) ∧ numPixels s1.w s1.h ≤ s1.pixcnt.toNat :=
  ⟨⟨_, rfl⟩, ⟨_, rfl⟩, by decide⟩

theorem witness_busy_span :
    (∃ t, step { s1 with host := [.offer 0x06000000] } = .next t ∧ t.busy = true) ∧
    (∃ t, step s1Busy = .next t ∧ t.busy = false) ∧
    (∃ t, step { s1Busy with encRemaining := 1 } = .next t ∧ t.busy = true) ∧ s1Busy.pins.rstN = true :=
  ⟨⟨_, rfl, rfl⟩, ⟨_, rfl, rfl⟩, ⟨_, rfl, rfl⟩, rfl⟩

theorem witness_engine_inputs :
    (∃ t, step s1Busy = .next t) ∧ s1Busy.busy = true ∧ s1Busy.pins.rstN = true ∧ ∃ t, exec .encode s1 = .next t :=
  ⟨⟨_, rfl⟩, rfl, rfl, _, rfl⟩

theorem witness_complete : s1.encodeInput.Complete := by unfold EncodeInput.Complete; decide
theorem witness_s1_input : encodeFn s1.encodeInput = .ok [0xFF0000FF, 0xFFFF0000] 1 [0x40] := by decide
theorem witness_uses : s1.encodeInput.Uses 1 := ⟨1, by decide, by decide⟩

/-- FirstFailingCheckDecides, clause by clause. -/
theorem witness_bad_dim : (encoding 0 5 [] []).encodeInput.w = 0 ∧ (encoding 5 0 [] []).encodeInput.h = 0 := by decide
theorem witness_incomplete :
    (encoding 2 1 [0] [0]).encodeInput.w ≠ 0 ∧ (encoding 2 1 [0] [0]).encodeInput.h ≠ 0 ∧
    (encoding 2 1 [0] [0]).encodeInput.pixcnt.toNat ≠ numPixels 2 1 := by decide
theorem witness_invalid_palette :
    (encoding 2 1 [0, 256] [0]).encodeInput.Complete ∧
    ∃ k < numPixels 2 1, 255 < ((encoding 2 1 [0, 256] [0]).encodeInput.raster.read k).toNat :=
  ⟨by unfold EncodeInput.Complete; decide, 1, by decide, by decide⟩
theorem witness_undefined :
    (encoding 2 1 [0, 255] [0]).encodeInput.Complete ∧
    (∀ k < numPixels 2 1, ((encoding 2 1 [0, 255] [0]).encodeInput.raster.read k).toNat ≤ 255) ∧
    (encoding 2 1 [0, 255] [0]).encodeInput.Uses 255 ∧
    (encoding 2 1 [0, 255] [0]).encodeInput.pltValid.getLsbD (255 : BitVec 8).toNat = false :=
  ⟨by unfold EncodeInput.Complete; decide, by decide, ⟨1, by decide, by decide⟩, by decide⟩
theorem witness_no_check_fails :
    (∀ k < numPixels s1.w s1.h, (s1.encodeInput.raster.read k).toNat ≤ 255) ∧
    ∀ u, s1.encodeInput.Uses u → s1.encodeInput.pltValid.getLsbD u.toNat = true := by
  refine ⟨by decide, ?_⟩
  rintro u ⟨k, hk, rfl⟩
  exact (by decide : ∀ k < numPixels s1.w s1.h,
    s1.encodeInput.pltValid.getLsbD (indexByte (s1.encodeInput.raster.read k)).toNat = true) k hk

/-- A success and a failure at the completion edge. -/
theorem witness_success :
    s1Busy.pins.rstN = true ∧ s1Busy.busy = true ∧ s1Busy.encRemaining = 0 ∧
    encodeFn s1Busy.encodeInput = .ok [0xFF0000FF, 0xFFFF0000] 1 [0x40] := by decide
theorem witness_failure :
    (encoding 2 1 [0] [0]).pins.rstN = true ∧ (encoding 2 1 [0] [0]).busy = true ∧ (encoding 2 1 [0] [0]).encRemaining = 0 ∧
    encodeFn (encoding 2 1 [0] [0]).encodeInput = .err .rasterIncomplete := by decide

/-- A pending ENCODE with three edges to go beside a host that reads, offers and waits; and the same image with none to go. -/
def s1Pending : State := { s1Busy with encRemaining := 3, host := [.drive (Pins.read 0), .offer 0x04000000, .wait] }
theorem witness_pending : s1Pending.busy = true ∧ neverResets s1Pending.host := by
  refine ⟨rfl, fun p hp => ?_⟩
  simp [s1Pending] at hp
  subst hp
  rfl
theorem witness_equal_inputs :
    s1Pending.encodeInput = s1Busy.encodeInput ∧ neverResets s1Busy.host ∧
    (∃ t, run (s1Pending.encRemaining + 1) s1Pending = .next t ∧ t.resValid = true) ∧
    ∃ t, run (s1Busy.encRemaining + 1) s1Busy = .next t ∧ t.resValid = true :=
  ⟨rfl, fun _ hp => absurd hp List.not_mem_nil, ⟨_, rfl, rfl⟩, _, rfl, rfl⟩

/-- IntegerFunctionsAreLeast: the smallest arguments. -/
theorem witness_integers : 0 < 1 ∧ (1 : Nat) ≤ 1 := by decide

theorem witness_used : 1 ≤ numPixels s1.w s1.h ∧ maxOf (rasterPixels s1.encodeInput) ≤ 255 := by decide

/-- What the statements about a result are about: an image whose width is past one byte, and one with a single colour. -/
theorem witness_result :
    encodeFn (encoding 5 1 [0, 1, 2, 3, 4] [0, 1, 2, 3, 4]).encodeInput =
      .ok [0xFF000000, 0xFF000001, 0xFF000002, 0xFF000003, 0xFF000004] 3 [0x8D, 0x10] := by decide
theorem witness_single : encodeFn (encoding 1 1 [0] [0x123456]).encodeInput = .ok [0xFF123456] 0 [] := by decide

/-- UnusedEntriesChangeNothing: S1's inputs with other contents at an unused entry and past the image. -/
theorem witness_unused :
    (∀ k < numPixels s1.w s1.h, s1.encodeInput.raster.read k = Memory.read [(0, 0), (1, 1), (2, 9)] k) ∧
    ∀ u, s1.encodeInput.Uses u →
      s1.encodeInput.pltIn.read u.toNat = Memory.read [(0, 0xFF0000), (1, 0x0000FF), (2, 5)] u.toNat ∧
      s1.encodeInput.pltValid.getLsbD u.toNat = (7 : BitVec 256).getLsbD u.toNat := by
  refine ⟨by decide, ?_⟩
  rintro u ⟨k, hk, rfl⟩
  have h : ∀ k < numPixels s1.w s1.h, s1.encodeInput.pltIn.read (indexByte (s1.encodeInput.raster.read k)).toNat =
      Memory.read [(0, 0xFF0000), (1, 0x0000FF), (2, 5)] (indexByte (s1.encodeInput.raster.read k)).toNat ∧
      s1.encodeInput.pltValid.getLsbD (indexByte (s1.encodeInput.raster.read k)).toNat =
        (7 : BitVec 256).getLsbD (indexByte (s1.encodeInput.raster.read k)).toNat := by decide
  exact h k hk

/-- An error that stays: PIXW on a full raster with ILLEGAL_CMD recorded (E11). -/
theorem witness_sticky :
    (∃ t, step { offering 0x05000000 with err := true, errcode := 1 } = .next t ∧ t.errcode = 1) ∧
    ∀ c, ({ offering 0x05000000 with err := true, errcode := 1 } : State).accepts c →
      decode c ≠ .instr .clear ∧ decode c ≠ .instr .clrerr := by
  refine ⟨⟨_, rfl, rfl⟩, ?_⟩
  rintro c ⟨-, rfl, -⟩
  decide

/-- The three causes of an error. -/
theorem witness_causes :
    (∃ t, step (offering 0xFF000000) = .next t ∧ t.err = true) ∧ (∃ t, step (offering 0x05000000) = .next t ∧ t.err = true) ∧
    (∃ t, step (encoding 2 1 [0] [0]) = .next t ∧ t.err = true) ∧ (offering 0).err = false ∧
    (encoding 2 1 [0] [0]).err = false :=
  ⟨⟨_, rfl, rfl⟩, ⟨_, rfl, rfl⟩, ⟨_, rfl, rfl⟩, rfl, rfl⟩

/-- The statements on who writes what: a PLTW at entry 2 beside an entry 1 that stays, on the end of S1. -/
theorem witness_writers :
    (∃ t, step { s1 with host := [.offer 0x04010203] } = .next t) ∧
    (∀ c, ({ s1 with host := [.offer 0x04010203] } : State).accepts c →
      decode c ≠ .instr .clear ∧ decode c ≠ .instr .encode ∧ ∀ w h, decode c ≠ .instr (.setdim w h)) ∧
    (∀ c r g b, ({ s1 with host := [.offer 0x04010203] } : State).accepts c → decode c = .instr (.pltw r g b) →
      s1.pltptr.toNat ≠ 1) ∧ s1.busy = false ∧ s1.pins.rstN = true := by
  have hd : decode 0x04010203 = .instr (.pltw 1 2 3) := by decide
  refine ⟨⟨_, rfl⟩, ?_, fun _ _ _ _ _ _ => by decide, rfl, rfl⟩
  rintro c ⟨-, rfl, -⟩
  exact ⟨by decide, by decide, fun w h e => by
    have e : decode 0x04010203 = .instr (.setdim w h) := e
    rw [hd] at e
    cases e⟩

/-- The ends of the reserved ranges, and of the ranges next to them. -/
theorem witness_reserved :
    [0x00007, 0x000FF, 0x00300, 0x0FFFF].all (fun a : Nat => (0x00007 ≤ a && a ≤ 0x000FF) || (0x00300 ≤ a && a ≤ 0x0FFFF)) = true := by
  decide

theorem witness_other_reads :
    [0x00000, 0x00003, 0x00007, 0x001FF, 0x00300, 0x0FFFF].all (fun a => !isResultAddr a) = true ∧
    SameInputs s1 { s1 with bpp := 3 } ∧ SameErrors s1 { s1 with bpp := 3 } :=
  ⟨by decide, ⟨rfl, rfl, rfl, rfl, rfl, rfl, rfl⟩, rfl, rfl⟩

/-- A legal state with a result in it. -/
theorem witness_Inv : s1.Inv where
  pixels := by unfold State.PixelCountBounded; decide
  errors := ⟨fun _ => rfl, fun h => by cases h⟩
  result := fun _ => ⟨rfl, by decide, by decide, by decide, by unfold State.PaletteRising; decide⟩
  byteCount := fun _ => ⟨2, 1, by decide, by decide, by decide⟩
  noResult := fun h => by cases h
  storage := by unfold State.StorageCanonical Memory.wf; decide
  written := by
    refine ⟨by unfold Memory.Written; decide, fun i _ hv => ?_, fun _ =>
      ⟨by unfold Memory.Written; decide, by unfold Memory.Written; decide⟩⟩
    have hi : i < 2 := by
      by_contra hn
      have h3 : (3 : Nat).testBit i = false :=
        Nat.testBit_lt_two_pow (Nat.lt_of_lt_of_le (by decide : 3 < 2 ^ 2) (Nat.pow_le_pow_right (by decide) (Nat.le_of_not_lt hn)))
      have hv : (BitVec.ofNat 256 3).getLsbD i = true := hv
      rw [BitVec.getLsbD_ofNat, h3, Bool.and_false] at hv
      cases hv
    exact (by unfold Memory.Written; decide : ∀ i < 2, s1.pltIn.Written i) i hi
  engine := fun _ => rfl

theorem witness_Inv_step : ∃ t, step { s1 with host := [.offer 0x06000000] } = .next t := ⟨_, rfl⟩

end Sys2Proof.Tests
end

/-! PROOFS. The integer functions of 00_scope.md R8: each is the lower adjoint of its property, so the value itself has the
property and is below every other number that has it. -/

namespace Sys2Proof.Machine

theorem ceilDiv_le_iff {a b q : Nat} (hb : 0 < b) : ceilDiv a b ≤ q ↔ a ≤ q * b := by
  rw [Nat.mul_comm q b]
  exact ceilDiv_le_iff_le_mul hb

theorem le_ceilDiv_mul {b : Nat} (a : Nat) (hb : 0 < b) : a ≤ ceilDiv a b * b :=
  (ceilDiv_le_iff hb).1 le_rfl

/-- The search `clog2 n` makes has room to find its value, since n ≤ 2^n. -/
theorem le_two_pow_zero_add_self (n : Nat) : n ≤ 2 ^ (0 + n) := by
  rw [Nat.zero_add]
  exact Nat.lt_two_pow_self.le

theorem le_two_pow_clog2 (n : Nat) : n ≤ 2 ^ clog2 n :=
  (clog2From_spec n 0 n (le_two_pow_zero_add_self n)).1

theorem clog2_le_iff {n k : Nat} : clog2 n ≤ k ↔ n ≤ 2 ^ k := by
  constructor
  · intro h
    exact (le_two_pow_clog2 n).trans (Nat.pow_le_pow_right (by decide) h)
  · exact (clog2From_spec n 0 n (le_two_pow_zero_add_self n)).2 k k.zero_le

/-- Settles O35: `ceilDiv` and `clog2` are the least numbers with their property, by their adjunctions. -/
theorem integerFunctionsAreLeast : Obligations.IntegerFunctionsAreLeast := by
  unfold Obligations.IntegerFunctionsAreLeast
  constructor
  · intro a b hb
    exact ⟨le_ceilDiv_mul a hb, fun q hq => (ceilDiv_le_iff hb).2 hq⟩
  · intro n _
    exact ⟨le_two_pow_clog2 n, fun k hk => clog2_le_iff.2 hk⟩

end Sys2Proof.Machine

namespace Sys2Proof.Machine

/-! PROOFS. What each operation leaves unchanged, over the model's own groups of elements (inputs, error record,
result, engine): the frames of the ports' edge, of the recording of an error, and of the engine's edge. -/

section Frames
variable (s : State)

theorem portsEdge_sameInputs : SameInputs s (portsEdge s) := by simp [SameInputs]
theorem portsEdge_sameErrors : SameErrors s (portsEdge s) := by simp [SameErrors]
theorem portsEdge_sameResult : SameResult s (portsEdge s) := by simp [SameResult]
theorem portsEdge_sameEngine : SameEngine s (portsEdge s) := by simp [SameEngine]

@[simp] theorem sameInputs_portsEdge_iff {t : State} : SameInputs (portsEdge s) t ↔ SameInputs s t := by
  simp [SameInputs]

theorem raiseError_sameInputs (e : ErrCode) : SameInputs s (raiseError e s) := by simp [SameInputs]
theorem raiseError_sameResult (e : ErrCode) : SameResult s (raiseError e s) := by simp [SameResult]
theorem raiseError_sameEngine (e : ErrCode) : SameEngine s (raiseError e s) := by simp [SameEngine]

theorem completeEncode_sameInputs : SameInputs s (completeEncode s) := by simp [SameInputs]

theorem engineEdge_sameInputs : SameInputs s (engineEdge s) := by
  rcases engineEdge_cases s with ⟨-, heq⟩ | ⟨n, -, heq⟩
  · rw [heq]; exact completeEncode_sameInputs s
  · rw [heq]; simp [SameInputs]

theorem execEncode_sameInputs {t : State} (h : execEncode s = .next t) : SameInputs s t := by
  cases h; simp [SameInputs]

/-- The engine's edge ends BUSY exactly if no edge was left to count (log 3). -/
theorem engineEdge_busy_eq_false_iff (hb : s.busy = true) : (engineEdge s).busy = false ↔ s.encRemaining = 0 := by
  rcases engineEdge_cases s with ⟨h0, heq⟩ | ⟨n, hn, heq⟩
  · simp [heq, h0]
  · simp [heq, hn, hb]

end Frames

/-- While BUSY = 1 an edge without reset is the engine's. -/
theorem step_of_busy {s : State} (hb : s.busy = true) (hr : s.pins.rstN = true) :
    step s = .next (engineEdge (portsEdge s)) := by
  have hpins : (hostPins s.host).rstN = true := hr
  simp [step, clockEdge, blockEdge, hpins, hb]

/-- The four things an edge without reset can be: the engine's, the acceptance of a command, the acceptance of an ILLEGAL
word, or idle. -/
theorem step_cases_without_reset {s t : State} (h : step s = .next t) (hr : s.pins.rstN = true) :
    (s.busy = true ∧ t = engineEdge (portsEdge s)) ∨
    (∃ c i, s.accepts c ∧ decode c = .instr i ∧ exec i (portsEdge s) = .next t) ∨
    (∃ c, s.accepts c ∧ (decode c).instr? = none ∧ t = raiseError .illegalCmd (portsEdge s)) ∨
    (s.busy = false ∧ t = portsEdge s) := by
  have hpins : (hostPins s.host).rstN = true := hr
  rcases step_cases h with ⟨hlow, -⟩ | ⟨-, hb, ht⟩ | ⟨-, hb, hv, hex⟩ | ⟨-, hb, -, ht⟩
  · simp [hpins] at hlow
  · exact .inl ⟨hb, ht⟩
  · have hacc : s.accepts (hostPins s.host).cmdData := accepts_iff.2 ⟨hpins, hb, hv, rfl⟩
    rcases execute_cases hex with ⟨i, hi, hexec⟩ | ⟨hill, ht⟩
    · exact .inr (.inl ⟨_, i, hacc, hi, hexec⟩)
    · exact .inr (.inr (.inl ⟨_, hacc, hill, ht⟩))
  · exact .inr (.inr (.inr ⟨hb, ht⟩))

/-! PROOFS. Who writes what (10_state.md R12, R16 to R18, R29): for each element the commands that can change it, then the
step. -/

/-- No command but ENCODE changes BUSY from 0 to 1. -/
theorem exec_busy_of_not_busy {i : Instr} {s t : State} (h : exec i s = .next t) (hb : s.busy = false)
    (ht : t.busy = true) : i = .encode := by
  cases i with
  | encode => rfl
  | pixw idx =>
    rcases execPixw_cases h with ⟨-, rfl⟩ | ⟨-, rfl⟩
    · simp [hb] at ht
    · simp [hb] at ht
  | clear => cases h; simp at ht
  | nop | setdim w h | pltptr p | pltw r g b | clrerr => cases h; simp [hb] at ht

theorem exec_keeps_dimensions {i : Instr} {s t : State} (h : exec i s = .next t)
    (hi : i ≠ .clear ∧ ∀ w h, i ≠ .setdim w h) : t.w = s.w ∧ t.h = s.h := by
  cases i with
  | clear => exact absurd rfl hi.1
  | setdim width height => exact absurd rfl (hi.2 width height)
  | pixw idx => rcases execPixw_cases h with ⟨-, rfl⟩ | ⟨-, rfl⟩ <;> simp
  | nop | pltptr p | pltw r g b | encode | clrerr => cases h; exact ⟨rfl, rfl⟩

/-- PLT_VALID[k] and what PLT_IN lists for entry `k` are the same in the two states. -/
def SamePaletteEntry (k : Nat) (s t : State) : Prop :=
  t.pltValid.getLsbD k = s.pltValid.getLsbD k ∧ t.pltIn.lookup k = s.pltIn.lookup k

theorem SameInputs.samePaletteEntry {s t : State} (h : SameInputs s t) (k : Nat) : SamePaletteEntry k s t := by
  obtain ⟨-, -, -, -, -, hin, hvalid⟩ := h
  simp [SamePaletteEntry, hin, hvalid]

@[simp] theorem samePaletteEntry_portsEdge_iff {k : Nat} {s t : State} :
    SamePaletteEntry k (portsEdge s) t ↔ SamePaletteEntry k s t := by simp [SamePaletteEntry]

theorem execPltw_keeps_paletteEntry {r g b : BitVec 8} {k : Nat} {s t : State} (h : execPltw r g b s = .next t)
    (hk : s.pltptr.toNat ≠ k) : SamePaletteEntry k s t := by
  cases h
  exact ⟨by simp [hk], Memory.lookup_write_other _ _ hk.symm⟩

theorem exec_keeps_paletteEntry {i : Instr} {k : Nat} {s t : State} (h : exec i s = .next t) (hi : i ≠ .clear)
    (hk : ∀ r g b, i = .pltw r g b → s.pltptr.toNat ≠ k) : SamePaletteEntry k s t := by
  cases i with
  | clear => exact absurd rfl hi
  | pltw r g b => exact execPltw_keeps_paletteEntry h (hk r g b rfl)
  | pixw idx => rcases execPixw_cases h with ⟨-, rfl⟩ | ⟨-, rfl⟩ <;> simp [SamePaletteEntry]
  | nop | setdim w h | pltptr p | encode | clrerr => cases h; exact ⟨rfl, rfl⟩

/-- Settles O28: BUSY rises only where `exec` runs ENCODE, and the engine's edge alone can end it. -/
theorem busyLastsFromAcceptanceToCompletion : Obligations.BusyLastsFromAcceptanceToCompletion := by
  unfold Obligations.BusyLastsFromAcceptanceToCompletion
  refine fun s t hstep hr => ⟨fun hb => ⟨fun ht => ?_, fun ⟨c, hacc, hdec⟩ => ?_⟩, fun hb => ?_⟩
  · rcases step_cases_without_reset hstep hr with ⟨hb', -⟩ | ⟨c, i, hacc, hdec, hexec⟩ | ⟨c, -, -, rfl⟩ | ⟨-, rfl⟩
    · simp [hb] at hb'
    · have hi : i = .encode := exec_busy_of_not_busy hexec (by simpa using hb) ht
      exact ⟨c, hacc, hi ▸ hdec⟩
    · simp [hb] at ht
    · simp [hb] at ht
  · rw [step_of_accepts hacc, hdec] at hstep
    cases hstep
    rfl
  · cases (step_of_busy hb hr).symm.trans hstep
    simpa using engineEdge_busy_eq_false_iff (portsEdge s) (by simpa using hb)

/-- Settles O29: an edge with BUSY = 1 is the engine's, and neither it nor ENCODE's acceptance writes an input. -/
theorem engineLeavesTheInputs : Obligations.EngineLeavesTheInputs := by
  unfold Obligations.EngineLeavesTheInputs
  refine ⟨fun s t hstep hb hr => ?_, fun s t h => execEncode_sameInputs s h⟩
  cases (step_of_busy hb hr).symm.trans hstep
  simpa using engineEdge_sameInputs (portsEdge s)

/-- Settles O49: the engine, an ILLEGAL word and an idle edge leave every input, and of the commands only SETDIM and CLEAR
write W and H. -/
theorem dimensionsChangeOnlyBySetdim : Obligations.DimensionsChangeOnlyBySetdim := by
  unfold Obligations.DimensionsChangeOnlyBySetdim
  intro s t hstep hr hacc
  rcases step_cases_without_reset hstep hr with ⟨-, rfl⟩ | ⟨c, i, hc, hdec, hexec⟩ | ⟨c, -, -, rfl⟩ | ⟨-, rfl⟩
  · obtain ⟨hw, hh, -⟩ := engineEdge_sameInputs (portsEdge s)
    simp [hw, hh]
  · simpa using exec_keeps_dimensions hexec (by simpa [hdec] using hacc c hc)
  · simp
  · simp

/-- Settles O50: the engine, an ILLEGAL word and an idle edge leave every input, and of the commands only CLEAR and a PLTW
at the entry write it. -/
theorem paletteEntriesPersist : Obligations.PaletteEntriesPersist := by
  unfold Obligations.PaletteEntriesPersist
  intro s t hstep hr hclear k _ hpltw
  show SamePaletteEntry k s t
  rcases step_cases_without_reset hstep hr with ⟨-, rfl⟩ | ⟨c, i, hc, hdec, hexec⟩ | ⟨c, -, -, rfl⟩ | ⟨-, rfl⟩
  · simpa using (engineEdge_sameInputs (portsEdge s)).samePaletteEntry k
  · have hne : i ≠ .clear := by simpa [hdec] using hclear c hc
    have hptr : ∀ r g b, i = .pltw r g b → (portsEdge s).pltptr.toNat ≠ k := by
      rintro r g b rfl
      simpa using hpltw c r g b hc hdec
    simpa using exec_keeps_paletteEntry hexec hne hptr
  · simpa using (raiseError_sameInputs (portsEdge s) .illegalCmd).samePaletteEntry k
  · exact (portsEdge_sameInputs s).samePaletteEntry k

end Sys2Proof.Machine

namespace Sys2Proof.Machine

/-! PROOFS. What a successful encode answers, as numbers (42_encode.md R87, 43_palette.md R92 to R95, 44_pack.md R103): the
palette's order and length, the width, the count of bytes; and what an array made from values holds. -/

theorem numPixels_le_maxPix (w h : BitVec 8) : numPixels w h ≤ Config.maxPix :=
  Nat.mul_le_mul (Nat.le_of_lt_succ w.isLt) (Nat.le_of_lt_succ h.isLt)

theorem EncodeInput.Complete.numPixels_pos {i : EncodeInput} (h : i.Complete) : 0 < numPixels i.w i.h := by
  obtain ⟨hw, hh, -⟩ := h
  have hw : 0 < i.w.toNat := Nat.pos_of_ne_zero fun h0 => hw (BitVec.eq_of_toNat_eq h0)
  have hh : 0 < i.h.toNat := Nat.pos_of_ne_zero fun h0 => hh (BitVec.eq_of_toNat_eq h0)
  exact Nat.mul_pos hw hh

/-- USED is the set of the indices that some pixel holds (43_palette.md R91). -/
theorem mem_usedSet_iff {i : EncodeInput} {u : BitVec 8} : u ∈ usedSet i ↔ i.Uses u := by
  simp [usedSet, EncodeInput.Uses, mem_rasterPixels]

theorem length_usedSet_le (i : EncodeInput) : (usedSet i).length ≤ 256 := (sortAscending_rising _).length_le

section Palette
variable {i : EncodeInput} {plt : List Color} {bpp : Nat} {bytes : List Byte}

theorem encodeFn_ok_palette_rising (h : encodeFn i = .ok plt bpp bytes) : Rising plt := by
  obtain ⟨-, -, -, rfl, -, -⟩ := encodeFn_ok h
  exact sortAscending_rising _

theorem encodeFn_ok_palette_length_pos (h : encodeFn i = .ok plt bpp bytes) : 1 ≤ plt.length := by
  obtain ⟨hcomplete, -, -, rfl, -, -⟩ := encodeFn_ok h
  have hused : indexByte (i.raster.read 0) ∈ usedSet i := mem_usedSet_iff.2 ⟨0, hcomplete.numPixels_pos, rfl⟩
  exact List.length_pos_of_mem (mem_sortAscending.2 (List.mem_map_of_mem hused))

theorem encodeFn_ok_palette_length_le (h : encodeFn i = .ok plt bpp bytes) : plt.length ≤ 256 := by
  obtain ⟨-, -, -, rfl, -, -⟩ := encodeFn_ok h
  calc (compactedPalette (usedSet i) i.pltIn).length
      ≤ ((usedSet i).map (colour i.pltIn)).length := length_sortAscending_le _
    _ = (usedSet i).length := List.length_map _
    _ ≤ 256 := length_usedSet_le i

theorem encodeFn_ok_bpp (h : encodeFn i = .ok plt bpp bytes) : bpp = clog2 plt.length := by
  obtain ⟨-, -, -, -, hbpp, -⟩ := encodeFn_ok h
  exact hbpp

theorem encodeFn_ok_bpp_le (h : encodeFn i = .ok plt bpp bytes) : bpp ≤ 8 := by
  rw [encodeFn_ok_bpp h]
  exact clog2_le_iff.2 (encodeFn_ok_palette_length_le h)

theorem encodeFn_ok_bytes_length (h : encodeFn i = .ok plt bpp bytes) :
    bytes.length = ceilDiv (numPixels i.w i.h * bpp) 8 := by
  obtain ⟨-, -, -, -, -, rfl⟩ := encodeFn_ok h
  simp [pack, traversal, remappedRaster, rasterPixels]

theorem encodeFn_ok_bytes_length_le (h : encodeFn i = .ok plt bpp bytes) : bytes.length ≤ Config.maxNbytes := by
  rw [encodeFn_ok_bytes_length h, ceilDiv_le_iff (by decide)]
  exact Nat.mul_le_mul (numPixels_le_maxPix i.w i.h) (encodeFn_ok_bpp_le h)

/-- Each result fits its register (10_state.md R21 to R23): a success commits the exact numbers. -/
theorem encodeFn_ok_fits (h : encodeFn i = .ok plt bpp bytes) :
    (BitVec.ofNat 9 plt.length).toNat = plt.length ∧ (BitVec.ofNat 4 bpp).toNat = bpp ∧
      (BitVec.ofNat 16 bytes.length).toNat = bytes.length := by
  have hlen : plt.length ≤ 256 := encodeFn_ok_palette_length_le h
  have hbpp : bpp ≤ 8 := encodeFn_ok_bpp_le h
  have hbytes : bytes.length ≤ 65025 := encodeFn_ok_bytes_length_le h
  exact ⟨Nat.mod_eq_of_lt (by omega), Nat.mod_eq_of_lt (by omega), Nat.mod_eq_of_lt (by omega)⟩

end Palette

section Arrays
variable {n : Nat}

theorem Memory.written_write {m : Memory n} {k j : Nat} (v : BitVec n) (h : j ≠ k → m.Written j) :
    (m.write k v).Written j := by
  unfold Memory.Written
  by_cases hj : j = k
  · subst hj; simp
  · rw [Memory.lookup_write_other m v hj]; exact h hj

theorem Memory.lookup_ofValues_zero {vs : List (BitVec n)} {j : Nat} (hj : j < vs.length) :
    (Memory.ofValues 0 vs).lookup j = some vs[j] := by
  rw [Memory.lookup_ofValues, if_pos j.zero_le, Nat.sub_zero, List.getElem?_eq_getElem hj]

theorem Memory.written_ofValues {vs : List (BitVec n)} {j : Nat} (hj : j < vs.length) :
    (Memory.ofValues 0 vs).Written j := by
  simp [Memory.Written, Memory.lookup_ofValues_zero hj]

theorem Memory.read_ofValues {vs : List (BitVec n)} {j : Nat} (hj : j < vs.length) :
    (Memory.ofValues 0 vs).read j = vs[j] := by
  simp [Memory.read, Memory.lookup_ofValues_zero hj]

end Arrays

/-! PROOFS. The invariant (10_state.md R28) in the three parts that the commands touch apart from each other: the input image,
the error record, and the result with its engine. Each part depends on its own group of elements alone. -/

/-- The part of the invariant that speaks of the input image: PIXCNT's bound, and RASTER and PLT_IN. -/
structure State.InputsLegal (s : State) : Prop where
  pixels : s.PixelCountBounded
  raster_wf : Memory.wf Config.maxPix s.raster
  pltIn_wf : Memory.wf Config.pltEntries s.pltIn
  raster_written : ∀ k < s.pixcnt.toNat, s.raster.Written k
  pltIn_written : ∀ k < 256, s.pltValid.getLsbD k = true → s.pltIn.Written k

/-- The part of the invariant that speaks of the result and of the engine. -/
structure State.OutputsLegal (s : State) : Prop where
  result : s.ResultLegal
  byteCount : s.ByteCountLegal
  noResult : s.NoResultIsZero
  pltOut_wf : Memory.wf Config.pltEntries s.pltOut
  bb_wf : Memory.wf Config.maxNbytes s.bb
  written : s.resValid = true → (∀ k < s.ncol.toNat, s.pltOut.Written k) ∧ ∀ j < s.nbytes.toNat, s.bb.Written j
  engine : s.EngineLegal

theorem State.inv_iff {s : State} : s.Inv ↔ s.InputsLegal ∧ s.ErrorRecordLegal ∧ s.OutputsLegal := by
  constructor
  · rintro ⟨hpixels, herrors, hresult, hcount, hno, ⟨hraster, hpltIn, hpltOut, hbb⟩, ⟨hwr, hwp, hwo⟩, hengine⟩
    exact ⟨⟨hpixels, hraster, hpltIn, hwr, hwp⟩, herrors, ⟨hresult, hcount, hno, hpltOut, hbb, hwo, hengine⟩⟩
  · rintro ⟨hin, herrors, hout⟩
    exact ⟨hin.pixels, herrors, hout.result, hout.byteCount, hout.noResult,
      ⟨hin.raster_wf, hin.pltIn_wf, hout.pltOut_wf, hout.bb_wf⟩,
      ⟨hin.raster_written, hin.pltIn_written, hout.written⟩, hout.engine⟩

section Parts
variable {s t : State}

theorem State.InputsLegal.of_sameInputs (hs : s.InputsLegal) (h : SameInputs s t) : t.InputsLegal := by
  obtain ⟨hpixels, hraster, hpltIn, hwr, hwp⟩ := hs
  obtain ⟨ew, eh, ep, er, -, ei, ev⟩ := h
  constructor
  · rwa [State.PixelCountBounded, ew, eh, ep]
  · rwa [er]
  · rwa [ei]
  · rwa [ep, er]
  · rwa [ev, ei]

theorem State.ErrorRecordLegal.of_sameErrors (hs : s.ErrorRecordLegal) (h : SameErrors s t) : t.ErrorRecordLegal := by
  obtain ⟨ee, ec⟩ := h
  rwa [State.ErrorRecordLegal, ee, ec]

theorem State.OutputsLegal.of_sameResult (hs : s.OutputsLegal) (h : SameResult s t) (he : SameEngine s t) :
    t.OutputsLegal := by
  obtain ⟨hresult, hcount, hno, hpltOut, hbb, hwo, hengine⟩ := hs
  obtain ⟨ev, ep, en, eb, eo, ebb⟩ := h
  obtain ⟨ebusy, erem⟩ := he
  constructor
  · rwa [State.ResultLegal, State.PaletteRising, ev, ebusy, en, ep, eo]
  · rwa [State.ByteCountLegal, ev, ep, eb]
  · rwa [State.NoResultIsZero, ev, ebusy, en, ep, eb]
  · rwa [eo]
  · rwa [ebb]
  · rwa [ev, en, eo, eb, ebb]
  · rwa [State.EngineLegal, ebusy, erem]

/-- The invariant does not speak of rd_data, the host's program or the draw counter. -/
theorem State.Inv.of_same (hs : s.Inv) (hi : SameInputs s t) (he : SameErrors s t) (hr : SameResult s t)
    (hg : SameEngine s t) : t.Inv := by
  obtain ⟨hin, herrors, hout⟩ := State.inv_iff.1 hs
  exact State.inv_iff.2 ⟨hin.of_sameInputs hi, herrors.of_sameErrors he, hout.of_sameResult hr hg⟩

theorem State.Inv.portsEdge (hs : s.Inv) : (portsEdge s).Inv :=
  hs.of_same (portsEdge_sameInputs s) (portsEdge_sameErrors s) (portsEdge_sameResult s) (portsEdge_sameEngine s)

theorem ErrCode.code_range (e : ErrCode) : 1 ≤ e.code.toNat ∧ e.code.toNat ≤ 6 := by cases e <;> decide

/-- Recording an error keeps the error record legal: the code recorded before, or one of R110's. -/
theorem raiseError_errorRecordLegal (hs : s.ErrorRecordLegal) (e : ErrCode) : (raiseError e s).ErrorRecordLegal := by
  unfold State.ErrorRecordLegal
  rw [raiseError_err, raiseError_errcode]
  refine ⟨fun h => by simp at h, fun _ => ?_⟩
  split
  · next herr => exact hs.2 herr
  · exact e.code_range

theorem State.Inv.raiseError (hs : s.Inv) (e : ErrCode) : (raiseError e s).Inv := by
  obtain ⟨hin, herrors, hout⟩ := State.inv_iff.1 hs
  exact State.inv_iff.2 ⟨hin.of_sameInputs (raiseError_sameInputs s e), raiseError_errorRecordLegal herrors e,
    hout.of_sameResult (raiseError_sameResult s e) (raiseError_sameEngine s e)⟩

theorem State.Inv.clearError (hs : s.Inv) : (clearError s).Inv := by
  obtain ⟨hin, -, hout⟩ := State.inv_iff.1 hs
  exact State.inv_iff.2 ⟨hin.of_sameInputs (by simp [SameInputs]), ⟨fun _ => rfl, fun h => by simp at h⟩,
    hout.of_sameResult (by simp [SameResult]) (by simp [SameEngine])⟩

/-- What changes only the input image, into a legal one, keeps the invariant. -/
theorem State.Inv.of_inputsLegal (hs : s.Inv) (ht : t.InputsLegal) (he : SameErrors s t) (hr : SameResult s t)
    (hg : SameEngine s t) : t.Inv := by
  obtain ⟨-, herrors, hout⟩ := State.inv_iff.1 hs
  exact State.inv_iff.2 ⟨ht, herrors.of_sameErrors he, hout.of_sameResult hr hg⟩

end Parts

/-- Settles O58: at reset every count and flag is 0 and no array lists anything. -/
theorem resetIsLegal : Obligations.ResetIsLegal := by
  unfold Obligations.ResetIsLegal
  have hinputs : State.reset.InputsLegal :=
    { pixels := Nat.zero_le _
      raster_wf := Memory.nil_wf _
      pltIn_wf := Memory.nil_wf _
      raster_written := fun _ hk => absurd hk (Nat.not_lt_zero _)
      pltIn_written := fun k _ hv => by simp [State.reset] at hv }
  have herrors : State.reset.ErrorRecordLegal := ⟨fun _ => rfl, fun h => by cases h⟩
  have houtputs : State.reset.OutputsLegal :=
    { result := fun h => by cases h
      byteCount := fun h => by cases h
      noResult := fun _ _ => ⟨rfl, rfl, rfl⟩
      pltOut_wf := Memory.nil_wf _
      bb_wf := Memory.nil_wf _
      written := fun h => by cases h
      engine := fun _ => rfl }
  exact State.inv_iff.2 ⟨hinputs, herrors, houtputs⟩

/-- R28 holds after a reset edge and after CLEAR, whatever the state was. -/
theorem applyReset_inv (s : State) : (applyReset s).Inv :=
  State.Inv.of_same (s := State.reset) resetIsLegal (by simp [SameInputs, State.reset]) (by simp [SameErrors, State.reset])
    (by simp [SameResult, State.reset]) (by simp [SameEngine, State.reset])

section Commands
variable {s t : State}

/-- SETDIM starts an empty raster, so nothing of it has to be written. -/
theorem execSetdim_inv {w h : BitVec 8} (hs : s.Inv) (ht : execSetdim w h s = .next t) : t.Inv := by
  cases ht
  obtain ⟨hin, -, -⟩ := State.inv_iff.1 hs
  refine hs.of_inputsLegal ?_ ⟨rfl, rfl⟩ ⟨rfl, rfl, rfl, rfl, rfl, rfl⟩ ⟨rfl, rfl⟩
  exact { pixels := Nat.zero_le _
          raster_wf := hin.raster_wf
          pltIn_wf := hin.pltIn_wf
          raster_written := fun _ hk => absurd hk (Nat.not_lt_zero _)
          pltIn_written := hin.pltIn_written }

/-- No part of the invariant speaks of PLTPTR. -/
theorem execPltptr_inv {p : BitVec 8} (hs : s.Inv) (ht : execPltptr p s = .next t) : t.Inv := by
  cases ht
  obtain ⟨hin, -, -⟩ := State.inv_iff.1 hs
  refine hs.of_inputsLegal ?_ ⟨rfl, rfl⟩ ⟨rfl, rfl, rfl, rfl, rfl, rfl⟩ ⟨rfl, rfl⟩
  exact ⟨hin.pixels, hin.raster_wf, hin.pltIn_wf, hin.raster_written, hin.pltIn_written⟩

/-- PLTW writes the one entry whose valid bit it sets. -/
theorem execPltw_inv {r g b : BitVec 8} (hs : s.Inv) (ht : execPltw r g b s = .next t) : t.Inv := by
  cases ht
  obtain ⟨hin, -, -⟩ := State.inv_iff.1 hs
  refine hs.of_inputsLegal ?_ ⟨rfl, rfl⟩ ⟨rfl, rfl, rfl, rfl, rfl, rfl⟩ ⟨rfl, rfl⟩
  refine { pixels := hin.pixels
           raster_wf := hin.raster_wf
           pltIn_wf := Memory.write_wf _ s.pltptr.isLt hin.pltIn_wf
           raster_written := hin.raster_written
           pltIn_written := fun k hk hv => ?_ }
  refine Memory.written_write _ fun hne => hin.pltIn_written k hk ?_
  simpa [hk, hne] using hv

/-- With room in the raster, PIXCNT + 1 does not wrap and counts one more written pixel. -/
theorem append_inv {idx : PixelIndex} (hs : s.Inv) (hroom : s.pixcnt.toNat < numPixels s.w s.h) :
    ({ s with raster := s.raster.write s.pixcnt.toNat idx, pixcnt := s.pixcnt + 1 } : State).Inv := by
  obtain ⟨hin, -, -⟩ := State.inv_iff.1 hs
  have hmax : numPixels s.w s.h ≤ 65025 := numPixels_le_maxPix s.w s.h
  have hcount : (s.pixcnt + 1).toNat = s.pixcnt.toNat + 1 := by
    rw [BitVec.toNat_add, show (1 : BitVec 16).toNat = 1 from rfl, Nat.mod_eq_of_lt (by omega)]
  refine hs.of_inputsLegal ?_ ⟨rfl, rfl⟩ ⟨rfl, rfl, rfl, rfl, rfl, rfl⟩ ⟨rfl, rfl⟩
  refine { pixels := ?_
           raster_wf := Memory.write_wf _ (hroom.trans_le hmax) hin.raster_wf
           pltIn_wf := hin.pltIn_wf
           raster_written := fun k hk => ?_
           pltIn_written := hin.pltIn_written }
  · exact hcount.trans_le hroom
  · have hk : k < s.pixcnt.toNat + 1 := hk.trans_eq hcount
    exact Memory.written_write _ fun hne => hin.raster_written k (by omega)

theorem execPixw_inv {idx : PixelIndex} (hs : s.Inv) (ht : execPixw idx s = .next t) : t.Inv := by
  rcases execPixw_cases ht with ⟨hroom, rfl⟩ | ⟨-, rfl⟩
  · exact append_inv hs hroom
  · exact hs.raiseError _

/-- With BUSY = 1 and RES_VALID = 0 nothing is said of the result registers, so R80's free values do no harm. -/
theorem execEncode_inv (hs : s.Inv) (ht : execEncode s = .next t) : t.Inv := by
  cases ht
  obtain ⟨hin, herrors, -⟩ := State.inv_iff.1 hs
  refine State.inv_iff.2 ⟨hin.of_sameInputs (execEncode_sameInputs s rfl), herrors.of_sameErrors ⟨rfl, rfl⟩, ?_⟩
  exact { result := fun h => by cases h
          byteCount := fun h => by cases h
          noResult := fun _ h => by cases h
          pltOut_wf := Memory.nil_wf _
          bb_wf := Memory.nil_wf _
          written := fun h => by cases h
          engine := fun h => by cases h }

theorem exec_inv {i : Instr} (hs : s.Inv) (ht : exec i s = .next t) : t.Inv := by
  cases i with
  | nop => cases ht; exact hs
  | clear => cases ht; exact applyReset_inv s
  | setdim w h => exact execSetdim_inv hs ht
  | pltptr p => exact execPltptr_inv hs ht
  | pltw r g b => exact execPltw_inv hs ht
  | pixw idx => exact execPixw_inv hs ht
  | encode => exact execEncode_inv hs ht
  | clrerr => cases ht; exact hs.clearError

theorem execute_inv {d : Decoded} (hs : s.Inv) (ht : execute d s = .next t) : t.Inv := by
  rcases execute_cases ht with ⟨i, -, hexec⟩ | ⟨-, rfl⟩
  · exact exec_inv hs hexec
  · exact hs.raiseError _

end Commands

section Completion
variable {s : State}

/-- The result of a success is legal: its registers hold the exact numbers, and its arrays list exactly what is below them. -/
theorem commitSuccess_outputsLegal {plt : List Color} {bpp : Nat} {bytes : List Byte}
    (h : encodeFn s.encodeInput = .ok plt bpp bytes) :
    ({ commitSuccess plt bpp bytes s with busy := false, encRemaining := 0 } : State).OutputsLegal := by
  obtain ⟨⟨hw, hh, -⟩, -⟩ := encodeFn_ok h
  obtain ⟨encol, ebpp, enbytes⟩ := encodeFn_ok_fits h
  have hlen : plt.length ≤ 256 := encodeFn_ok_palette_length_le h
  refine { result := fun _ => ⟨rfl, (encodeFn_ok_palette_length_pos h).trans_eq encol.symm, encol.trans_le hlen, ?_, ?_⟩
           byteCount := fun _ => ⟨s.w, s.h, hw, hh, ?_⟩
           noResult := fun hv => by cases hv
           pltOut_wf := Memory.ofValues_wf _ hlen
           bb_wf := Memory.ofValues_wf _ (encodeFn_ok_bytes_length_le h)
           written := fun _ => ⟨fun k hk => Memory.written_ofValues (hk.trans_eq encol),
             fun j hj => Memory.written_ofValues (hj.trans_eq enbytes)⟩
           engine := fun _ => rfl }
  · simp only [commitSuccess_bpp, commitSuccess_ncol, encol, ebpp]
    exact encodeFn_ok_bpp h
  · intro k hk j hj
    have hk : k < plt.length := hk.trans_eq encol
    simp only [commitSuccess_pltOut, Memory.read_ofValues hk, Memory.read_ofValues (hj.trans hk)]
    exact List.pairwise_iff_getElem.1 (encodeFn_ok_palette_rising h) j k _ _ hj
  · simp only [commitSuccess_bpp, commitSuccess_nbytes, enbytes, ebpp]
    exact encodeFn_ok_bytes_length h

/-- A failure leaves no result and drops nothing that the arrays list. -/
theorem commitFailure_outputsLegal (hs : s.OutputsLegal) (e : ErrCode) :
    ({ commitFailure e s with busy := false, encRemaining := 0 } : State).OutputsLegal where
  result := fun hv => by simp at hv
  byteCount := fun hv => by simp at hv
  noResult := fun _ _ => by simp
  pltOut_wf := by simpa using hs.pltOut_wf
  bb_wf := by simpa using hs.bb_wf
  written := fun hv => by simp at hv
  engine := fun _ => rfl

theorem commitFailure_errorRecordLegal (hs : s.ErrorRecordLegal) (e : ErrCode) : (commitFailure e s).ErrorRecordLegal :=
  (raiseError_errorRecordLegal hs e).of_sameErrors (by simp [SameErrors])

theorem completeEncode_inv (hs : s.Inv) : (completeEncode s).Inv := by
  obtain ⟨hin, herrors, hout⟩ := State.inv_iff.1 hs
  have hin' := hin.of_sameInputs (completeEncode_sameInputs s)
  rcases completeEncode_cases s with ⟨plt, bpp, bytes, hok, heq⟩ | ⟨e, -, heq⟩
  · rw [heq] at hin' ⊢
    exact State.inv_iff.2 ⟨hin', herrors.of_sameErrors ⟨rfl, rfl⟩, commitSuccess_outputsLegal hok⟩
  · rw [heq] at hin' ⊢
    exact State.inv_iff.2 ⟨hin', (commitFailure_errorRecordLegal herrors e).of_sameErrors ⟨rfl, rfl⟩,
      commitFailure_outputsLegal hout e⟩

theorem engineEdge_inv (hs : s.Inv) (hb : s.busy = true) : (engineEdge s).Inv := by
  rcases engineEdge_cases s with ⟨-, heq⟩ | ⟨n, -, heq⟩
  · rw [heq]; exact completeEncode_inv hs
  · rw [heq]
    obtain ⟨hin, herrors, hout⟩ := State.inv_iff.1 hs
    exact State.inv_iff.2 ⟨hin.of_sameInputs ⟨rfl, rfl, rfl, rfl, rfl, rfl, rfl⟩, herrors,
      ⟨hout.result, hout.byteCount, hout.noResult, hout.pltOut_wf, hout.bb_wf, hout.written, fun h => by simp [hb] at h⟩⟩

end Completion

/-- Settles O59: the ports keep the invariant, and so does each of the four things an edge can be. -/
theorem everyStepKeepsTheInvariant : Obligations.EveryStepKeepsTheInvariant := by
  unfold Obligations.EveryStepKeepsTheInvariant
  intro s t hs hstep
  rcases step_cases hstep with ⟨-, rfl⟩ | ⟨-, hb, rfl⟩ | ⟨-, -, -, hexec⟩ | ⟨-, -, -, rfl⟩
  · exact applyReset_inv (portsEdge s)
  · exact engineEdge_inv hs.portsEdge (by simpa using hb)
  · exact execute_inv hs.portsEdge hexec
  · exact hs.portsEdge

/-- With BUSY = 0 there is a result, whose entries are written, or the counts are 0 (R28.5) and nothing lies below them. -/
theorem State.OutputsLegal.written_of_not_busy {s : State} (hs : s.OutputsLegal) (hb : s.busy = false) :
    (∀ k < s.ncol.toNat, s.pltOut.Written k) ∧ ∀ j < s.nbytes.toNat, s.bb.Written j := by
  cases hv : s.resValid with
  | true => exact hs.written hv
  | false =>
    obtain ⟨hncol, -, hnbytes⟩ := hs.noResult hv hb
    simp [hncol, hnbytes]

/-- Settles O60: a complete image ends at PIXCNT, a successful encode uses entries with PLT_VALID only, and a result lists
all its entries. -/
theorem nothingUnwrittenIsRead : Obligations.NothingUnwrittenIsRead := by
  unfold Obligations.NothingUnwrittenIsRead
  intro s hs
  obtain ⟨hin, -, hout⟩ := State.inv_iff.1 hs
  refine ⟨fun hcomplete k hk => ?_, fun plt bpp bytes hok u hu => ?_, hin.pltIn_written, hout.written_of_not_busy⟩
  · obtain ⟨-, -, hcount⟩ := hcomplete
    exact hin.raster_written k (hk.trans_eq hcount.symm)
  · obtain ⟨-, -, hvalid, -⟩ := encodeFn_ok hok
    exact hin.pltIn_written u.toNat u.isLt (hvalid u (mem_usedSet_iff.2 hu))

/-! PROOFS. The STATUS word (10_state.md R26). -/

/-- STATUS is no result address, so its read is the map's at every time. -/
theorem memRead_status (s : State) : memRead s 0x00000 = statusWord s := by
  simp [memRead, drawsOnRead, isResultAddr, readMap]

/-- The STATUS word's low byte: three flags and five zeros. -/
theorem statusWord_getLsbD_of_lt (s : State) {k : Nat} (hk : k < 8) :
    (statusWord s).getLsbD k =
      if k = 0 then s.busy else if k = 1 then s.resValid else if k = 2 then s.err else false := by
  simp only [statusWord, BitVec.getLsbD_setWidth, BitVec.getLsbD_append]
  interval_cases k <;> simp

/-- The STATUS word from bit 8 on: the error code, and zeros past its four bits. -/
theorem statusWord_getLsbD_of_ge (s : State) {k : Nat} (hk : 8 ≤ k) :
    (statusWord s).getLsbD k = s.errcode.getLsbD (k - 8) := by
  simp only [statusWord, BitVec.getLsbD_setWidth, BitVec.getLsbD_append]
  rw [if_neg (by omega), if_neg (by omega), if_neg (by omega), if_neg (by omega), show k - 1 - 1 - 1 - 5 = k - 8 by omega]
  by_cases h32 : k < 32
  · simp [h32]
  · simp [h32, BitVec.getLsbD_of_ge s.errcode (k - 8) (by omega)]

/-- Settles O52: a read of address 0 is the STATUS word, whose low byte holds the flags and whose next bits the error code. -/
theorem statusWordLayout : Obligations.StatusWordLayout := by
  unfold Obligations.StatusWordLayout
  refine fun s => ⟨memRead_status s, ?_, ?_, ?_, ?_, ?_, ?_⟩
  · exact statusWord_getLsbD_of_lt s (k := 0) (by decide)
  · exact statusWord_getLsbD_of_lt s (k := 1) (by decide)
  · exact statusWord_getLsbD_of_lt s (k := 2) (by decide)
  · refine BitVec.eq_of_getLsbD_eq fun k hk => ?_
    rw [BitVec.getLsbD_extractLsb', statusWord_getLsbD_of_lt s (by omega), if_neg (by omega), if_neg (by omega),
      if_neg (by omega)]
    simp
  · refine BitVec.eq_of_getLsbD_eq fun k hk => ?_
    rw [BitVec.getLsbD_extractLsb', statusWord_getLsbD_of_ge s (by omega)]
    simp [hk]
  · refine BitVec.eq_of_getLsbD_eq fun k hk => ?_
    rw [BitVec.getLsbD_extractLsb', statusWord_getLsbD_of_ge s (by omega), BitVec.getLsbD_of_ge s.errcode _ (by omega)]
    simp

end Sys2Proof.Machine

namespace Sys2Proof.Machine

/-! PROOFS. The read map by its ranges (20_memory.md R34 to R43), and where a read is the map's value. -/

section ReadMap
variable (s : State)

theorem memRead_of_not_drawsOnRead {s : State} {a : Addr} (h : drawsOnRead s a = false) :
    memRead s a = readMap s a.toNat := by
  simp [memRead, h]

theorem drawsOnRead_of_not_busy {s : State} (hb : s.busy = false) (a : Addr) : drawsOnRead s a = false := by
  simp [drawsOnRead, hb]

theorem drawsOnRead_of_not_resultAddr {a : Addr} (ha : isResultAddr a.toNat = false) : drawsOnRead s a = false := by
  simp [drawsOnRead, ha]

theorem memRead_of_not_busy {s : State} (hb : s.busy = false) (a : Addr) : memRead s a = readMap s a.toNat :=
  memRead_of_not_drawsOnRead (drawsOnRead_of_not_busy hb a)

theorem memRead_of_not_resultAddr {a : Addr} (ha : isResultAddr a.toNat = false) : memRead s a = readMap s a.toNat :=
  memRead_of_not_drawsOnRead (drawsOnRead_of_not_resultAddr s ha)

/-! The registers at their own addresses (R35 to R38). -/

theorem memRead_dim : memRead s 0x00001 = (s.h ++ s.w).zeroExtend 32 := memRead_of_not_resultAddr s (by decide)
theorem memRead_pixcnt : memRead s 0x00002 = s.pixcnt.zeroExtend 32 := memRead_of_not_resultAddr s (by decide)
theorem memRead_pltptr : memRead s 0x00003 = s.pltptr.zeroExtend 32 := memRead_of_not_resultAddr s (by decide)
theorem memRead_bpp {s : State} (hb : s.busy = false) : memRead s 0x00004 = s.bpp.zeroExtend 32 :=
  memRead_of_not_busy hb _
theorem memRead_ncol {s : State} (hb : s.busy = false) : memRead s 0x00005 = s.ncol.zeroExtend 32 :=
  memRead_of_not_busy hb _
theorem memRead_nbytes {s : State} (hb : s.busy = false) : memRead s 0x00006 = s.nbytes.zeroExtend 32 :=
  memRead_of_not_busy hb _

/-! The ranges (R39 to R42), by the map's own order of tests. -/

theorem isResultAddr_eq_false_iff {a : Nat} :
    isResultAddr a = false ↔ a ≠ 0x00004 ∧ a ≠ 0x00005 ∧ a ≠ 0x00006 ∧ ¬ (0x00200 ≤ a ∧ a ≤ 0x002FF) ∧ ¬ 0x10000 ≤ a := by
  simp [isResultAddr, and_assoc]

theorem readMap_pltInView {i : Nat} (hi : i < 256) : readMap s (0x00100 + i) = pltInView s i := by
  unfold readMap
  iterate 7 rw [if_neg (by omega)]
  rw [if_pos (by omega), Nat.add_sub_cancel_left]

theorem readMap_pltOutWindow {k : Nat} (hk : k < 256) : readMap s (0x00200 + k) = pltOutWindow s k := by
  unfold readMap
  iterate 8 rw [if_neg (by omega)]
  rw [if_pos (by omega), Nat.add_sub_cancel_left]

theorem readMap_bbWindow (j : Nat) : readMap s (0x10000 + j) = bbWindow s j := by
  unfold readMap
  iterate 9 rw [if_neg (by omega)]
  rw [if_pos (by omega), Nat.add_sub_cancel_left]

/-- The two reserved ranges (R42). -/
theorem readMap_reserved {a : Nat} (ha : (0x00007 ≤ a ∧ a ≤ 0x000FF) ∨ (0x00300 ≤ a ∧ a ≤ 0x0FFFF)) : readMap s a = 0 := by
  unfold readMap
  iterate 10 rw [if_neg (by omega)]

theorem statusWord_congr {s t : State} (he : SameErrors s t) (hb : t.busy = s.busy) (hv : t.resValid = s.resValid) :
    statusWord t = statusWord s := by
  obtain ⟨herr, hcode⟩ := he
  simp only [statusWord, herr, hcode, hb, hv]

theorem pltInView_congr {s t : State} (h : SameInputs s t) : pltInView t = pltInView s := by
  obtain ⟨-, -, -, -, -, hin, hvalid⟩ := h
  funext i
  simp only [pltInView, hin, hvalid]

/-- Outside the result addresses the map shows the inputs and STATUS only. -/
theorem readMap_congr {s t : State} {a : Nat} (ha : isResultAddr a = false) (hi : SameInputs s t)
    (hst : statusWord t = statusWord s) : readMap t a = readMap s a := by
  obtain ⟨h4, h5, h6, hplt, hbb⟩ := isResultAddr_eq_false_iff.1 ha
  have hview := pltInView_congr hi
  obtain ⟨hw, hh, hpixcnt, -, hpltptr, -, -⟩ := hi
  simp only [readMap, h4, h5, h6, hplt, hbb, if_false, hst, hview, hw, hh, hpixcnt, hpltptr]

end ReadMap

/-! PROOFS. What the edge moves beside the block (R32, R33): a read that draws nothing, and rd_data after the edge. -/

/-- A read that draws no free value moves rd_data and nothing else, the model's counter included. -/
theorem readPort_of_not_drawsOnRead {p : Pins} {s : State} (h : drawsOnRead s p.rdAddr = false) :
    readPort p s = { s with rdData := if p.rdEn then some (memRead s p.rdAddr) else none } := by
  unfold readPort
  split <;> simp [h]

theorem portsEdge_of_not_busy {s : State} (hb : s.busy = false) :
    portsEdge s =
      { s with rdData := if s.pins.rdEn then some (memRead s s.pins.rdAddr) else none, host := hostAfter s } := by
  rw [portsEdge, readPort_of_not_drawsOnRead (drawsOnRead_of_not_busy hb _)]
  rfl

theorem exec_keeps_rdData {i : Instr} {s t : State} (h : exec i s = .next t) : t.rdData = s.rdData := by
  cases i with
  | pixw idx => rcases execPixw_cases h with ⟨-, rfl⟩ | ⟨-, rfl⟩ <;> simp
  | nop | clear | setdim w h | pltptr p | pltw r g b | encode | clrerr => cases h; rfl

theorem execute_keeps_rdData {d : Decoded} {s t : State} (h : execute d s = .next t) : t.rdData = s.rdData := by
  rcases execute_cases h with ⟨i, -, hexec⟩ | ⟨-, rfl⟩
  · exact exec_keeps_rdData hexec
  · simp

theorem engineEdge_keeps_rdData (s : State) : (engineEdge s).rdData = s.rdData := by
  rcases engineEdge_cases s with ⟨-, heq⟩ | ⟨n, -, heq⟩ <;> simp [heq]

/-- What the block does at an edge, reset included, leaves rd_data as the ports set it. -/
theorem step_rdData {s t : State} (h : step s = .next t) : t.rdData = (portsEdge s).rdData := by
  rcases step_cases h with ⟨-, rfl⟩ | ⟨-, -, rfl⟩ | ⟨-, -, -, hexec⟩ | ⟨-, -, -, rfl⟩
  · exact applyReset_rdData _
  · exact engineEdge_keeps_rdData _
  · exact execute_keeps_rdData hexec
  · rfl

/-- Settles O14: the ports set rd_data from the state before the edge, and none of the four things an edge can be changes
it; the second clause is `readPort`'s frame, element by element. -/
theorem readReturnsTheStateBeforeTheEdge : Obligations.ReadReturnsTheStateBeforeTheEdge := by
  unfold Obligations.ReadReturnsTheStateBeforeTheEdge
  constructor
  · intro s t hstep
    rw [step_rdData hstep, portsEdge_rdData]
    rfl
  · intro p s
    simp [SameInputs, SameResult, SameErrors, SameEngine]

/-- Settles O53: the first three addresses are no result addresses, and with BUSY = 0 every read is the map's; widening a
register to 32 bits keeps its value. -/
theorem registersReadBack : Obligations.RegistersReadBack := by
  unfold Obligations.RegistersReadBack
  refine fun s => ⟨?_, ?_, ?_, fun hb => ⟨?_, ?_, ?_⟩⟩
  · rw [memRead_dim, zeroExtend_append_bytes]
  · rw [memRead_pixcnt, BitVec.toNat_setWidth_of_le (by decide)]
  · rw [memRead_pltptr, BitVec.toNat_setWidth_of_le (by decide)]
  · rw [memRead_bpp hb, BitVec.toNat_setWidth_of_le (by decide)]
  · rw [memRead_ncol hb, BitVec.toNat_setWidth_of_le (by decide)]
  · rw [memRead_nbytes hb, BitVec.toNat_setWidth_of_le (by decide)]

/-- Settles O54: with BUSY = 0 the reads are the map's, and the two ranges are the masked windows. -/
theorem resultWindowsAreMasked : Obligations.ResultWindowsAreMasked := by
  unfold Obligations.ResultWindowsAreMasked
  refine fun s hb => ⟨fun k => ?_, fun j => ?_⟩
  · have haddr : (0x00200 + k.zeroExtend 17 : Addr).toNat = 0x00200 + k.toNat := by bv_omega
    rw [memRead_of_not_busy hb, haddr, readMap_pltOutWindow s k.isLt, pltOutWindow]
  · have haddr : (0x10000 + j.zeroExtend 17 : Addr).toNat = 0x10000 + j.toNat := by bv_omega
    rw [memRead_of_not_busy hb, haddr, readMap_bbWindow, bbWindow]

/-- Settles O55: the view's addresses are no result addresses, and a valid entry's word has bit 24 above the colour. -/
theorem paletteViewShowsValidEntries : Obligations.PaletteViewShowsValidEntries := by
  unfold Obligations.PaletteViewShowsValidEntries
  intro s i
  have hi : i.toNat < 256 := i.isLt
  have haddr : (0x00100 + i.zeroExtend 17 : Addr).toNat = 0x00100 + i.toNat := by bv_omega
  have hres : isResultAddr (0x00100 + i.zeroExtend 17 : Addr).toNat = false :=
    isResultAddr_eq_false_iff.2 (by omega)
  rw [memRead_of_not_resultAddr s hres, haddr, readMap_pltInView s hi, pltInView, zeroExtend_one_append]

/-- Settles O56: a reserved address is no result address, so its read draws nothing, and the map is 0 there. -/
theorem reservedAddressesReadZero : Obligations.ReservedAddressesReadZero := by
  unfold Obligations.ReservedAddressesReadZero
  intro s a ha
  have hres : isResultAddr a.toNat = false := isResultAddr_eq_false_iff.2 (by omega)
  have hzero : memRead s a = 0 := by rw [memRead_of_not_resultAddr s hres, readMap_reserved s ha]
  refine ⟨hzero, ?_⟩
  rw [readPort_of_not_drawsOnRead (p := Pins.read a) (drawsOnRead_of_not_resultAddr s hres), ← hzero]
  rfl

/-- Settles O57: outside the result addresses the read is the map's, which shows the inputs and STATUS only; and a read
draws under exactly the three conditions of `drawsOnRead`. -/
theorem otherReadsStayDefinedWhileBusy : Obligations.OtherReadsStayDefinedWhileBusy := by
  unfold Obligations.OtherReadsStayDefinedWhileBusy
  constructor
  · intro s t a ha hi he hb hv
    rw [memRead_of_not_resultAddr t ha, memRead_of_not_resultAddr s ha]
    exact readMap_congr ha hi (statusWord_congr he hb hv)
  · intro p s
    simp [drawsOnRead]

/-- Settles O8: a word is accepted with BUSY = 0 only, where the ports draw nothing; and cmd_ready is 1 then, so an offer is
done with. -/
theorem stepRunsAcceptedCommand : Obligations.StepRunsAcceptedCommand := by
  unfold Obligations.StepRunsAcceptedCommand
  intro s c i hacc hdec
  obtain ⟨-, hb, -, -⟩ := accepts_iff.1 hacc
  constructor
  · rw [step_of_accepts hacc, hdec, portsEdge_of_not_busy hb]
    rfl
  · intro rest hhost
    simp [hostAfter, hhost, cmdReady, Pins.command, Pins.idle, hb]

end Sys2Proof.Machine

namespace Sys2Proof

/-! PROOFS. The formats (30_encoding.md R50 to R56): a command's word is its fields side by side, so a word is a command's
encoding exactly if each of its fields is the command's. -/

open Machine

/-- Two parts side by side are a word exactly if its upper and its lower bits are the parts. -/
theorem append_eq_iff {m n : Nat} {x : BitVec m} {y : BitVec n} {c : BitVec (m + n)} :
    x ++ y = c ↔ c.extractLsb' n m = x ∧ c.extractLsb' 0 n = y := by
  constructor
  · rintro rfl
    exact ⟨BitVec.extractLsb'_append_eq_left, BitVec.extractLsb'_append_eq_right⟩
  · rintro ⟨rfl, rfl⟩
    exact BitVec.extractLsb'_append_extractLsb'

theorem eq_append_iff {m n : Nat} {x : BitVec m} {y : BitVec n} {c : BitVec (m + n)} :
    c = x ++ y ↔ c.extractLsb' n m = x ∧ c.extractLsb' 0 n = y := eq_comm.trans append_eq_iff

/-- Three fields side by side, as R60 composes them: each shifted to its place. -/
theorem append_three_eq_or {k m n : Nat} (x : BitVec k) (y : BitVec m) (z : BitVec n) :
    x ++ (y ++ z) = x.zeroExtend _ <<< (m + n) ||| y.zeroExtend _ <<< n ||| z.zeroExtend _ := by
  rw [← BitVec.setWidth_eq (x ++ (y ++ z))]
  simp only [BitVec.setWidth_append_eq_shiftLeft_setWidth_or, BitVec.or_assoc]

/-- Four fields side by side. -/
theorem append_four_eq_or {j k m n : Nat} (w : BitVec j) (x : BitVec k) (y : BitVec m) (z : BitVec n) :
    w ++ (x ++ (y ++ z)) =
      w.zeroExtend _ <<< (k + (m + n)) ||| x.zeroExtend _ <<< (m + n) ||| y.zeroExtend _ <<< n ||| z.zeroExtend _ := by
  rw [← BitVec.setWidth_eq (w ++ (x ++ (y ++ z)))]
  simp only [BitVec.setWidth_append_eq_shiftLeft_setWidth_or, BitVec.or_assoc]

/-- Format D (R52). -/
theorem encode_setdim (w h : BitVec 8) : encode (.setdim w h) = 0x02#8 ++ (0#8 ++ (h ++ w)) :=
  (append_four_eq_or 0x02#8 0#8 h w).symm

/-- Format P (R53). -/
theorem encode_pltptr (p : BitVec 8) : encode (.pltptr p) = 0x03#8 ++ (0#16 ++ p) :=
  (append_three_eq_or 0x03#8 0#16 p).symm

/-- Format C (R54). -/
theorem encode_pltw (r g b : BitVec 8) : encode (.pltw r g b) = 0x04#8 ++ (r ++ (g ++ b)) :=
  (append_four_eq_or 0x04#8 r g b).symm

/-- Format X (R55). -/
theorem encode_pixw (idx : PixelIndex) : encode (.pixw idx) = 0x05#8 ++ (0#8 ++ idx) :=
  (append_three_eq_or 0x05#8 0#8 idx).symm

/-- The colour operand (R56). -/
theorem rgbOf_eq_append (r g b : BitVec 8) : rgbOf r g b = r ++ (g ++ b) := (append_three_eq_or r g b).symm

/-- The fields of `c` are those of the command: its opcode, its reserved bits all 0, and each operand (R50 to R57). -/
def Instr.FieldsIn (c : Word) : Instr → Prop
  | .nop => opcodeOf c = 0x00#8 ∧ operandArea c = 0
  | .clear => opcodeOf c = 0x01#8 ∧ operandArea c = 0
  | .setdim w h => opcodeOf c = 0x02#8 ∧ upperByte c = 0 ∧ lowByte c = w ∧ middleByte c = h
  | .pltptr p => opcodeOf c = 0x03#8 ∧ upperHalf c = 0 ∧ lowByte c = p
  | .pltw r g b => opcodeOf c = 0x04#8 ∧ upperByte c = r ∧ middleByte c = g ∧ lowByte c = b
  | .pixw idx => opcodeOf c = 0x05#8 ∧ upperByte c = 0 ∧ lowHalf c = idx
  | .encode => opcodeOf c = 0x06#8 ∧ operandArea c = 0
  | .clrerr => opcodeOf c = 0x07#8 ∧ operandArea c = 0

theorem encode_eq_iff_fieldsIn {c : Word} {i : Instr} : encode i = c ↔ i.FieldsIn c := by
  have formatZ (k : BitVec 8) : k ++ 0#24 = c ↔ opcodeOf c = k ∧ operandArea c = 0 := append_eq_iff
  cases i with
  | nop => exact formatZ 0x00#8
  | clear => exact formatZ 0x01#8
  | encode => exact formatZ 0x06#8
  | clrerr => exact formatZ 0x07#8
  | setdim w h =>
    rw [encode_setdim, append_eq_iff, eq_append_iff, eq_append_iff]
    simp [Instr.FieldsIn, opcodeOf, upperByte, middleByte, lowByte, and_comm]
  | pltptr p =>
    rw [encode_pltptr, append_eq_iff, eq_append_iff]
    simp [Instr.FieldsIn, opcodeOf, upperHalf, lowByte]
  | pltw r g b =>
    rw [encode_pltw, append_eq_iff, eq_append_iff, eq_append_iff]
    simp [Instr.FieldsIn, opcodeOf, upperByte, middleByte, lowByte]
  | pixw idx =>
    rw [encode_pixw, append_eq_iff, eq_append_iff]
    simp [Instr.FieldsIn, opcodeOf, upperByte, lowHalf]

theorem whenClear_eq_instr_iff {b : Bool} {i j : Instr} : whenClear b i = .instr j ↔ b = true ∧ i = j := by
  cases b <;> simp [whenClear]

/-- By the opcode the word has, then the command: with another opcode than the command's both sides are false, and with the
command's own `whenClear` is the test of the reserved bits. -/
theorem decode_eq_instr_iff_fieldsIn {c : Word} {i : Instr} : decode c = .instr i ↔ i.FieldsIn c := by
  unfold decode
  split_ifs
  all_goals cases i <;> simp [Instr.FieldsIn, whenClear_eq_instr_iff, *]

theorem decode_eq_instr_iff {c : Word} {i : Instr} : decode c = .instr i ↔ encode i = c :=
  decode_eq_instr_iff_fieldsIn.trans encode_eq_iff_fieldsIn.symm

/-- Settles O2: a word decodes to a command, and is its encoding, exactly if its fields are the command's. -/
theorem decodeAndEncodeAgree : Obligations.DecodeAndEncodeAgree := by
  unfold Obligations.DecodeAndEncodeAgree
  exact fun c i => decode_eq_instr_iff

/-- Settles O1: the eleven words are fixed, so decoding them is a computation. -/
theorem sampleWordsDecode : Obligations.SampleWordsDecode := by
  unfold Obligations.SampleWordsDecode
  decide

/-- Settles O4: the operands are read off the fields; for the colour operand the three bytes stand side by side. -/
theorem operandsAreTheirFields : Obligations.OperandsAreTheirFields := by
  unfold Obligations.OperandsAreTheirFields
  refine ⟨fun c w h hdec => ?_, fun c p hdec => ?_, fun c r g b hdec => ?_, fun c idx hdec => ?_⟩
  · obtain ⟨-, -, hw, hh⟩ := decode_eq_instr_iff_fieldsIn.1 hdec
    exact ⟨hw.symm, hh.symm⟩
  · obtain ⟨-, -, hp⟩ := decode_eq_instr_iff_fieldsIn.1 hdec
    exact hp.symm
  · obtain ⟨-, rfl, rfl, rfl⟩ := decode_eq_instr_iff_fieldsIn.1 hdec
    refine ⟨rfl, rfl, rfl, ?_⟩
    rw [rgbOf_eq_append, append_eq_iff, eq_append_iff]
    simp [upperByte, middleByte, lowByte]
  · obtain ⟨-, -, hidx⟩ := decode_eq_instr_iff_fieldsIn.1 hdec
    exact hidx.symm

/-! PROOFS. The opcode map (30_encoding.md R57, R58): what a row's mask says of a word that matches it. -/

/-- Where a mask covers a field, a word that matches has the match bits' field. -/
theorem extractLsb'_of_and_eq {w start len : Nat} {c mask m : BitVec w} (hc : c &&& mask = m)
    (hmask : mask.extractLsb' start len = BitVec.allOnes len) : c.extractLsb' start len = m.extractLsb' start len := by
  rw [← hc, BitVec.extractLsb'_and, hmask, BitVec.and_allOnes]

/-- Every mask covers bits [31:24]. -/
theorem opcodeOf_of_matches {c : Word} {row : OpcodeRow} (hrow : row ∈ opcodeTable) (hc : c &&& row.mask = row.matchBits) :
    opcodeOf c = opcodeOf row.matchBits := by
  have hmask : ∀ r ∈ opcodeTable, r.mask.extractLsb' 24 8 = BitVec.allOnes 8 := by decide
  exact extractLsb'_of_and_eq hc (hmask row hrow)

/-- The rows' opcode bytes differ. -/
theorem row_eq_of_opcodeOf_eq {r₁ r₂ : OpcodeRow} (h₁ : r₁ ∈ opcodeTable) (h₂ : r₂ ∈ opcodeTable)
    (h : opcodeOf r₁.matchBits = opcodeOf r₂.matchBits) : r₁ = r₂ := by
  have hrows : ∀ a ∈ opcodeTable, ∀ b ∈ opcodeTable, opcodeOf a.matchBits = opcodeOf b.matchBits → a = b := by decide
  exact hrows r₁ h₁ r₂ h₂ h

theorem row_eq_of_mnemonic_eq {r₁ r₂ : OpcodeRow} (h₁ : r₁ ∈ opcodeTable) (h₂ : r₂ ∈ opcodeTable)
    (h : r₁.mnemonic = r₂.mnemonic) : r₁ = r₂ := by
  have hrows : ∀ a ∈ opcodeTable, ∀ b ∈ opcodeTable, a.mnemonic = b.mnemonic → a = b := by decide
  exact hrows r₁ h₁ r₂ h₂ h

theorem encode_matches_row (i : Instr) : Laws.EncodesInRow.Statement i := by
  cases i with
  | nop => exact Laws.EncodesInRow.nop
  | clear => exact Laws.EncodesInRow.clear
  | setdim w h => exact Laws.EncodesInRow.setdim w h
  | pltptr p => exact Laws.EncodesInRow.pltptr p
  | pltw r g b => exact Laws.EncodesInRow.pltw r g b
  | pixw idx => exact Laws.EncodesInRow.pixw idx
  | encode => exact Laws.EncodesInRow.encode
  | clrerr => exact Laws.EncodesInRow.clrerr

/-- A word that decodes to a command matches the command's row. -/
theorem matches_of_decode {c : Word} {i : Instr} (h : decode c = .instr i) :
    ∃ row ∈ opcodeTable, row.mnemonic = i.mnemonic ∧ c &&& row.mask = row.matchBits := by
  rw [← decode_eq_instr_iff.1 h]
  exact encode_matches_row i

/-- A word that matches a row decodes to the row's command, with the operands its fields hold. -/
theorem decode_of_matches {c : Word} {row : OpcodeRow} (hrow : row ∈ opcodeTable) (hc : c &&& row.mask = row.matchBits) :
    ∃ i, decode c = .instr i ∧ i.mnemonic = row.mnemonic := by
  have hop := opcodeOf_of_matches hrow hc
  simp only [decode_eq_instr_iff_fieldsIn]
  simp only [opcodeTable, List.mem_cons, List.not_mem_nil, or_false] at hrow
  obtain rfl | rfl | rfl | rfl | rfl | rfl | rfl | rfl := hrow
  · exact ⟨.nop, ⟨hop, extractLsb'_of_and_eq hc (by decide)⟩, rfl⟩
  · exact ⟨.clear, ⟨hop, extractLsb'_of_and_eq hc (by decide)⟩, rfl⟩
  · exact ⟨.setdim _ _, ⟨hop, extractLsb'_of_and_eq hc (by decide), rfl, rfl⟩, rfl⟩
  · exact ⟨.pltptr _, ⟨hop, extractLsb'_of_and_eq hc (by decide), rfl⟩, rfl⟩
  · exact ⟨.pltw _ _ _, ⟨hop, rfl, rfl, rfl⟩, rfl⟩
  · exact ⟨.pixw _, ⟨hop, extractLsb'_of_and_eq hc (by decide), rfl⟩, rfl⟩
  · exact ⟨.encode, ⟨hop, extractLsb'_of_and_eq hc (by decide)⟩, rfl⟩
  · exact ⟨.clrerr, ⟨hop, extractLsb'_of_and_eq hc (by decide)⟩, rfl⟩

theorem decode_of_opcode_ge {c : Word} (h : 8 ≤ (opcodeOf c).toNat) : decode c = .illegalOpcode := by
  have hne (k : BitVec 8) (hk : k.toNat < 8) : opcodeOf c ≠ k := by
    rintro rfl
    omega
  simp [decode, hne]

/-- Settles O3: a matching word's fields are those of the row's command and back; two rows that match one word have its
opcode byte; and from 0x08 on no opcode is a row's. -/
theorem decodeFollowsOpcodeMap : Obligations.DecodeFollowsOpcodeMap := by
  unfold Obligations.DecodeFollowsOpcodeMap
  refine ⟨fun c row hrow => ⟨decode_of_matches hrow, fun ⟨i, hdec, hname⟩ => ?_⟩, fun c r₁ h₁ r₂ h₂ hm₁ hm₂ => ?_,
    fun c => decode_of_opcode_ge⟩
  · obtain ⟨row', hrow', hname', hmatch⟩ := matches_of_decode hdec
    rwa [row_eq_of_mnemonic_eq hrow hrow' (hname.symm.trans hname'.symm)]
  · exact row_eq_of_opcodeOf_eq h₁ h₂ ((opcodeOf_of_matches h₁ hm₁).symm.trans (opcodeOf_of_matches h₂ hm₂))

theorem exists_row_of_opcode_lt {k : BitVec 8} (hk : k.toNat < 8) : ∃ row ∈ opcodeTable, opcodeOf row.matchBits = k := by
  revert k
  decide

theorem instr?_eq_none_iff {d : Decoded} : d.instr? = none ↔ ∀ i, d ≠ .instr i := by
  cases d <;> simp [Decoded.instr?]

/-- Which words are illegal (R58). -/
theorem decode_illegal_iff {c : Word} :
    (decode c).instr? = none ↔
      8 ≤ (opcodeOf c).toNat ∨
        ∃ row ∈ opcodeTable, opcodeOf row.matchBits = opcodeOf c ∧ c &&& row.mask ≠ row.matchBits := by
  rw [instr?_eq_none_iff]
  constructor
  · intro hill
    refine or_iff_not_imp_left.2 fun hlt => ?_
    obtain ⟨row, hrow, hop⟩ := exists_row_of_opcode_lt (Nat.lt_of_not_le hlt)
    refine ⟨row, hrow, hop, fun hmatch => ?_⟩
    obtain ⟨i, hdec, -⟩ := decode_of_matches hrow hmatch
    exact hill i hdec
  · rintro (hge | ⟨row, hrow, hop, hne⟩) i hdec
    · simp [decode_of_opcode_ge hge] at hdec
    · obtain ⟨row', hrow', -, hmatch⟩ := matches_of_decode hdec
      have hrows : row = row' := row_eq_of_opcodeOf_eq hrow hrow' (hop.trans (opcodeOf_of_matches hrow' hmatch))
      exact hne (hrows ▸ hmatch)

end Sys2Proof

namespace Sys2Proof.Machine

/-! PROOFS. Accepting an illegal word (R58), and the host at the edge (20_memory.md R31, 30_encoding.md R62). -/

/-- `raiseError` as one update (60_exceptions.md R111). -/
theorem raiseError_eq (e : ErrCode) (s : State) :
    raiseError e s = { s with err := true, errcode := if s.err then s.errcode else e.code } := by
  unfold raiseError
  split
  · next herr => simp [← herr]
  · rfl

theorem execute_of_illegal {d : Decoded} (h : d.instr? = none) (s : State) :
    execute d s = .next (raiseError .illegalCmd s) := by
  cases d with
  | instr i => cases h
  | illegalOpcode | illegalReserved => rfl

theorem accepts_of_offer {s : State} {c : Word} {rest : List HostOp} (hhost : s.host = .offer c :: rest)
    (hb : s.busy = false) : s.accepts c :=
  accepts_iff.2 (by simp [hhost, hb, hostPins, Pins.command, Pins.idle])

theorem hostAfter_offer {s : State} {c : Word} {rest : List HostOp} (hhost : s.host = .offer c :: rest)
    (hb : s.busy = false) : hostAfter s = rest := by
  simp [hostAfter, hhost, cmdReady, Pins.command, Pins.idle, hb]

/-- Settles O5: an illegal word matches no row; a word is accepted with BUSY = 0 only, where the ports draw nothing; and
an offer is accepted with BUSY = 0. -/
theorem illegalWordsOnlyRecordAnError : Obligations.IllegalWordsOnlyRecordAnError := by
  unfold Obligations.IllegalWordsOnlyRecordAnError
  refine ⟨fun c => decode_illegal_iff, fun s c hacc hill => ?_, fun s c rest hhost hb =>
    ⟨accepts_of_offer hhost hb, hostAfter_offer hhost hb⟩⟩
  obtain ⟨-, hb, -, -⟩ := accepts_iff.1 hacc
  rw [step_of_accepts hacc, execute_of_illegal hill, raiseError_eq, portsEdge_of_not_busy hb]
  rfl

theorem exec_keeps_host {i : Instr} {s t : State} (h : exec i s = .next t) : t.host = s.host := by
  cases i with
  | pixw idx => rcases execPixw_cases h with ⟨-, rfl⟩ | ⟨-, rfl⟩ <;> simp
  | nop | clear | setdim w h | pltptr p | pltw r g b | encode | clrerr => cases h; rfl

theorem execute_keeps_host {d : Decoded} {s t : State} (h : execute d s = .next t) : t.host = s.host := by
  rcases execute_cases h with ⟨i, -, hexec⟩ | ⟨-, rfl⟩
  · exact exec_keeps_host hexec
  · simp

theorem engineEdge_keeps_host (s : State) : (engineEdge s).host = s.host := by
  rcases engineEdge_cases s with ⟨-, heq⟩ | ⟨n, -, heq⟩ <;> simp [heq]

/-- What the block does at an edge, reset included, leaves the host's program as the ports set it. -/
theorem step_host {s t : State} (h : step s = .next t) : t.host = hostAfter s := by
  rcases step_cases h with ⟨-, rfl⟩ | ⟨-, -, rfl⟩ | ⟨-, -, -, hexec⟩ | ⟨-, -, -, rfl⟩
  · rfl
  · rw [engineEdge_keeps_host, portsEdge_host]
  · rw [execute_keeps_host hexec, portsEdge_host]
  · rfl

/-- WAIT's poll sees BUSY, which is bit 0 of STATUS (20_memory.md R48). -/
theorem hostAfter_wait {s : State} {rest : List HostOp} (h : s.host = .wait :: rest) :
    hostAfter s = if s.busy then .wait :: rest else rest := by
  have hpoll : (memRead s 0).getLsbD 0 = s.busy := by
    rw [memRead_status, statusWord_getLsbD_of_lt s (by decide), if_pos rfl]
  simp only [hostAfter, h, hpoll]

/-- Settles O15: nothing but the poll moves the host's program, and the poll's bit is BUSY. -/
theorem waitEndsWhenNotBusy : Obligations.WaitEndsWhenNotBusy := by
  unfold Obligations.WaitEndsWhenNotBusy
  intro s t rest hhost hstep
  rw [step_host hstep, hostAfter_wait hhost]
  exact ⟨fun hb => if_pos hb, fun hb => by simp [hb]⟩

/-! PROOFS. The assembler (30_encoding.md R60, R61): R60's words are the encodings, and a stream of lines is assembled
exactly if every line is well formed. -/

theorem ofNat_shiftLeft {w : Nat} (x n : Nat) : BitVec.ofNat w (x <<< n) = BitVec.ofNat w x <<< n := by
  apply BitVec.eq_of_toNat_eq
  simp [Nat.mod_two_pow_shiftLeft_mod_two_pow]

theorem setdimWord_toNat (w h : BitVec 8) : setdimWord w.toNat h.toNat = encode (.setdim w h) := by
  simp [setdimWord, encode, ofNat_shiftLeft]

theorem pltptrWord_toNat (p : BitVec 8) : pltptrWord p.toNat = encode (.pltptr p) := by
  simp [pltptrWord, encode]

theorem pixwWord_toNat (idx : PixelIndex) : pixwWord idx.toNat = encode (.pixw idx) := by
  simp [pixwWord, encode]

theorem rgbOf_toNat (r g b : BitVec 8) : (rgbOf r g b).toNat = r.toNat <<< 16 ||| g.toNat <<< 8 ||| b.toNat := by
  rw [rgbOf_eq_append, BitVec.toNat_append, BitVec.toNat_append, Nat.or_assoc]

theorem pltwWord_rgbOf (r g b : BitVec 8) : pltwWord (rgbOf r g b).toNat = encode (.pltw r g b) := by
  rw [rgbOf_toNat]
  simp [pltwWord, encode, ofNat_shiftLeft, BitVec.or_assoc]

theorem assembleLine_of_wellFormed {l : AsmLine} (h : l.wellFormed = true) : assembleLine l = some (expandLine l) :=
  if_pos h

/-- Settles O6: an operand held in its field's width is in its range, and R60's words are the encodings. -/
theorem assembledLinesAreTheirWords : Obligations.AssembledLinesAreTheirWords := by
  unfold Obligations.AssembledLinesAreTheirWords
  have byte (x : BitVec 8) : x.toNat ≤ 255 := Nat.le_of_lt_succ x.isLt
  refine ⟨fun w h => ?_, fun p => ?_, fun r g b => ?_, fun r g b => ?_, fun idx => ?_, fun c => ?_, fun a => ?_⟩
  · rw [assembleLine_of_wellFormed (by simp [AsmLine.wellFormed, byte]), expandLine, setdimWord_toNat]
  · rw [assembleLine_of_wellFormed (by simp [AsmLine.wellFormed, byte]), expandLine, pltptrWord_toNat]
  · rw [assembleLine_of_wellFormed (by simp [AsmLine.wellFormed, byte]), expandLine, ← rgbOf_toNat, pltwWord_rgbOf]
  · have hrgb : (rgbOf r g b).toNat ≤ 0xFFFFFF := Nat.le_of_lt_succ (rgbOf r g b).isLt
    rw [assembleLine_of_wellFormed (by simp [AsmLine.wellFormed, hrgb]), expandLine, pltwWord_rgbOf]
  · have hidx : idx.toNat ≤ 65535 := Nat.le_of_lt_succ idx.isLt
    rw [assembleLine_of_wellFormed (by simp [AsmLine.wellFormed, hidx]), expandLine, pixwWord_toNat]
  · have hc : c.toNat ≤ 0xFFFFFFFF := Nat.le_of_lt_succ c.isLt
    rw [assembleLine_of_wellFormed (by simp [AsmLine.wellFormed, hc]), expandLine, BitVec.ofNat_toNat, BitVec.setWidth_eq]
  · have ha : a.toNat ≤ 0x1FFFF := Nat.le_of_lt_succ a.isLt
    rw [assembleLine_of_wellFormed (by simp [AsmLine.wellFormed, ha]), expandLine, BitVec.ofNat_toNat, BitVec.setWidth_eq]

/-- A stream's operations are its lines' operations in order, if every line is well formed. -/
theorem assemble_eq_ite (ls : List AsmLine) :
    assemble ls = if ls.all AsmLine.wellFormed then some (ls.flatMap expandLine) else none := by
  induction ls with
  | nil => rfl
  | cons l ls ih =>
    rw [assemble, assembleLine, ih]
    by_cases hl : l.wellFormed = true
    · by_cases hls : ls.all AsmLine.wellFormed = true
      · simp [hl, hls]
      · simp [hl, hls]
    · simp [hl]

/-- Settles O7: the expansion's lines are well formed exactly if the operands are in range, and its operations are the
lines' own, in order. -/
theorem pseudoCommandsExpand : Obligations.PseudoCommandsExpand := by
  unfold Obligations.PseudoCommandsExpand
  refine ⟨fun p c cs => ?_, fun i is => ?_, fun w h => rfl⟩
  · rw [assemble_eq_ite]
    simp [assembleLine, AsmLine.wellFormed, expandLine, List.flatMap_map, ← List.map_eq_flatMap]
  · rw [assemble_eq_ite]
    simp [assembleLine, AsmLine.wellFormed, expandLine, List.flatMap_map, ← List.map_eq_flatMap]

end Sys2Proof.Machine

namespace Sys2Proof

/-! PROOFS. A word of format Z by its opcode (30_encoding.md R51, R58): the command, or ILLEGAL for its reserved bits. -/

open Machine

section FormatZ
variable {c : Word}

theorem decode_of_opcode_nop (h : opcodeOf c = 0x00#8) :
    decode c = if operandArea c = 0 then .instr .nop else .illegalReserved := by
  simp [decode, h, whenClear]

theorem decode_of_opcode_clear (h : opcodeOf c = 0x01#8) :
    decode c = if operandArea c = 0 then .instr .clear else .illegalReserved := by
  simp [decode, h, whenClear]

theorem decode_of_opcode_clrerr (h : opcodeOf c = 0x07#8) :
    decode c = if operandArea c = 0 then .instr .clrerr else .illegalReserved := by
  simp [decode, h, whenClear]

end FormatZ

end Sys2Proof

namespace Sys2Proof.Machine

/-! PROOFS. The control commands (40_control.md R65 to R67), and the commands that store to no array. -/

theorem not_busy_of_accepts {s : State} {c : Word} (h : s.accepts c) : s.busy = false := by
  obtain ⟨-, hb, -, -⟩ := accepts_iff.1 h
  exact hb

theorem applyReset_atReset (s : State) : (applyReset s).AtReset := by simp [State.AtReset]
theorem applyReset_samePorts (s : State) : SamePorts s (applyReset s) := ⟨rfl, rfl, rfl⟩

/-- With no error recorded in a legal state, clearing the record is the identity (60_exceptions.md R117). -/
theorem clearError_of_no_error {s : State} (hlegal : s.ErrorRecordLegal) (herr : s.err = false) : clearError s = s := by
  obtain ⟨hcode, -⟩ := hlegal
  rw [clearError, ← herr, ← hcode herr]

theorem statusWord_eq_zero {s : State} (hcode : s.errcode = 0) (herr : s.err = false) (hvalid : s.resValid = false)
    (hb : s.busy = false) : statusWord s = 0 := by
  rw [statusWord, hcode, herr, hvalid, hb]
  rfl

/-- At most W, H, PIXCNT, PLTPTR and the error record differ: every array, the result, the engine and the ports are the
same. -/
def SameButInputRegistersAndErrors (s t : State) : Prop :=
  t = { s with w := t.w, h := t.h, pixcnt := t.pixcnt, pltptr := t.pltptr, err := t.err, errcode := t.errcode }

theorem raiseError_sameButInputRegistersAndErrors (e : ErrCode) (s : State) :
    SameButInputRegistersAndErrors s (raiseError e s) := by
  rw [raiseError_eq]
  rfl

/-- Settles O16: NOP's meaning is the same state; a word is accepted with BUSY = 0 only. -/
theorem nopChangesNothing : Obligations.NopChangesNothing := by
  unfold Obligations.NopChangesNothing
  exact ⟨fun s => rfl, fun c => decode_of_opcode_nop, fun s c => not_busy_of_accepts⟩

/-- Settles O17: CLEAR's meaning is `applyReset`, whose state is R131's, beside the ports it keeps. -/
theorem clearAppliesResetValues : Obligations.ClearAppliesResetValues := by
  unfold Obligations.ClearAppliesResetValues
  exact ⟨fun s => ⟨applyReset s, rfl, applyReset_atReset s, applyReset_encRemaining s, applyReset_samePorts s⟩,
    fun c => decode_of_opcode_clear, fun s c => not_busy_of_accepts⟩

/-- Settles O18: CLRERR's meaning is `clearError`, which writes what a legal record without an error holds already, and
leaves STATUS to BUSY and RES_VALID. -/
theorem clrerrClearsTheErrorRecord : Obligations.ClrerrClearsTheErrorRecord := by
  unfold Obligations.ClrerrClearsTheErrorRecord
  refine ⟨fun s => rfl, fun s hlegal herr => ?_, fun s t hexec hb hvalid => ?_, fun c => decode_of_opcode_clrerr⟩
  · exact congrArg Host.Outcome.next (clearError_of_no_error hlegal herr)
  · cases hexec
    exact statusWord_eq_zero (clearError_errcode s) (clearError_err s) hvalid hb

/-- Settles O26: each of the five writes at most W, H, PIXCNT, PLTPTR and the error record; a PIXW on a full raster does not
append. -/
theorem commandsWithoutAStoreLeaveTheArrays : Obligations.CommandsWithoutAStoreLeaveTheArrays := by
  unfold Obligations.CommandsWithoutAStoreLeaveTheArrays
  intro i s t hi hexec
  have hsame : SameButInputRegistersAndErrors s t := by
    cases i with
    | nop | clrerr | setdim w h | pltptr p => cases hexec; rfl
    | pixw idx =>
      have hfull : numPixels s.w s.h ≤ s.pixcnt.toNat := by simpa using hi
      rcases execPixw_cases hexec with ⟨hroom, -⟩ | ⟨-, rfl⟩
      · exact absurd hroom (Nat.not_lt.2 hfull)
      · exact raiseError_sameButInputRegistersAndErrors .rasterOverflow s
    | clear | pltw r g b | encode => simp at hi
  rw [hsame]
  simp [SameEngine, SamePorts]

end Sys2Proof.Machine

namespace Sys2Proof

/-! PROOFS. A word of an input command's format by its opcode (30_encoding.md R52 to R55, R58): the command with its fields as
operands, or ILLEGAL for its reserved bits; format C has none. -/

open Machine

section InputFormats
variable {c : Word}

theorem decode_of_opcode_setdim (h : opcodeOf c = 0x02#8) :
    decode c = if upperByte c = 0 then .instr (.setdim (lowByte c) (middleByte c)) else .illegalReserved := by
  simp [decode, h, whenClear]

theorem decode_of_opcode_pltptr (h : opcodeOf c = 0x03#8) :
    decode c = if upperHalf c = 0 then .instr (.pltptr (lowByte c)) else .illegalReserved := by
  simp [decode, h, whenClear]

theorem decode_of_opcode_pltw (h : opcodeOf c = 0x04#8) :
    decode c = .instr (.pltw (upperByte c) (middleByte c) (lowByte c)) :=
  decode_eq_instr_iff_fieldsIn.2 ⟨h, rfl, rfl, rfl⟩

theorem decode_of_opcode_pixw (h : opcodeOf c = 0x05#8) :
    decode c = if upperByte c = 0 then .instr (.pixw (lowHalf c)) else .illegalReserved := by
  simp [decode, h, whenClear]

end InputFormats

end Sys2Proof

namespace Sys2Proof.Machine

/-! PROOFS. The input commands (41_input.md R70 to R74): PIXW's two forms, what the input commands leave unchanged, and that a
result address shows the result only. -/

section Pixw
variable {s : State}

theorem execPixw_of_room (hroom : s.pixcnt.toNat < numPixels s.w s.h) (idx : PixelIndex) :
    execPixw idx s = .next { s with raster := s.raster.write s.pixcnt.toNat idx, pixcnt := s.pixcnt + 1 } := if_pos hroom

theorem execPixw_of_full (hfull : numPixels s.w s.h ≤ s.pixcnt.toNat) (idx : PixelIndex) :
    execPixw idx s = .next (raiseError .rasterOverflow s) := if_neg (Nat.not_lt.2 hfull)

/-- W × H fits in PIXCNT's 16 bits, so with room in the raster PIXCNT does not wrap. -/
theorem pixcnt_add_one_toNat_of_room (hroom : s.pixcnt.toNat < numPixels s.w s.h) :
    (s.pixcnt + 1).toNat = s.pixcnt.toNat + 1 := by
  have hmax : numPixels s.w s.h ≤ 65025 := numPixels_le_maxPix s.w s.h
  exact BitVec.toNat_add_of_lt (y := 1) (show s.pixcnt.toNat + 1 < 65536 by omega)

end Pixw

/-- The input commands write neither the result nor the engine (R74). -/
theorem exec_input_sameResult_sameEngine {i : Instr} {s t : State}
    (hi : (∃ w h, i = .setdim w h) ∨ (∃ p, i = .pltptr p) ∨ (∃ r g b, i = .pltw r g b) ∨ ∃ idx, i = .pixw idx)
    (hexec : exec i s = .next t) : SameResult s t ∧ SameEngine s t := by
  obtain ⟨w, h, rfl⟩ | ⟨p, rfl⟩ | ⟨r, g, b, rfl⟩ | ⟨idx, rfl⟩ := hi
  · cases hexec; simp [SameResult, SameEngine]
  · cases hexec; simp [SameResult, SameEngine]
  · cases hexec; simp [SameResult, SameEngine]
  · rcases execPixw_cases hexec with ⟨-, rfl⟩ | ⟨-, rfl⟩
    · simp [SameResult, SameEngine]
    · exact ⟨raiseError_sameResult s _, raiseError_sameEngine s _⟩

/-- The result addresses: three registers and two windows (20_memory.md R43). -/
theorem isResultAddr_cases {a : Nat} (ha : isResultAddr a = true) :
    a = 0x00004 ∨ a = 0x00005 ∨ a = 0x00006 ∨ (∃ k < 256, a = 0x00200 + k) ∨ ∃ j, a = 0x10000 + j := by
  simp only [isResultAddr, Bool.or_eq_true, Bool.and_eq_true, decide_eq_true_eq] at ha
  rcases ha with (((h4 | h5) | h6) | hplt) | hbb
  · exact .inl h4
  · exact .inr (.inl h5)
  · exact .inr (.inr (.inl h6))
  · exact .inr (.inr (.inr (.inl ⟨a - 0x00200, by omega, by omega⟩)))
  · exact .inr (.inr (.inr (.inr ⟨a - 0x10000, by omega⟩)))

theorem pltOutWindow_congr {s t : State} (h : SameResult s t) : pltOutWindow t = pltOutWindow s := by
  obtain ⟨-, -, hncol, -, hpltOut, -⟩ := h
  funext k
  simp only [pltOutWindow, hncol, hpltOut]

theorem bbWindow_congr {s t : State} (h : SameResult s t) : bbWindow t = bbWindow s := by
  obtain ⟨-, -, -, hnbytes, -, hbb⟩ := h
  funext j
  simp only [bbWindow, hnbytes, hbb]

/-- At a result address the map shows the result only. -/
theorem readMap_congr_of_sameResult {s t : State} {a : Nat} (ha : isResultAddr a = true) (h : SameResult s t) :
    readMap t a = readMap s a := by
  have hplt := pltOutWindow_congr h
  have hbb := bbWindow_congr h
  obtain ⟨-, hbpp, hncol, hnbytes, -, -⟩ := h
  obtain rfl | rfl | rfl | ⟨k, hk, rfl⟩ | ⟨j, rfl⟩ := isResultAddr_cases ha
  · exact congrArg (BitVec.zeroExtend 32) hbpp
  · exact congrArg (BitVec.zeroExtend 32) hncol
  · exact congrArg (BitVec.zeroExtend 32) hnbytes
  · rw [readMap_pltOutWindow t hk, readMap_pltOutWindow s hk, hplt]
  · rw [readMap_bbWindow, readMap_bbWindow, hbb]

theorem SamePaletteEntry.pltIn_read {k : Nat} {s t : State} (h : SamePaletteEntry k s t) :
    t.pltIn.read k = s.pltIn.read k := by
  obtain ⟨-, hlookup⟩ := h
  rw [Memory.read, hlookup, Memory.read]

/-- Settles O21: the write at PLTPTR is read back and sets the valid bit there, so the view of a valid entry shows it. -/
theorem pltwWritesTheEntryAtThePointer : Obligations.PltwWritesTheEntryAtThePointer := by
  unfold Obligations.PltwWritesTheEntryAtThePointer
  refine ⟨fun r g b s => ⟨_, rfl, Memory.read_write_same _ _ _, ?valid, BitVec.toNat_add _ _, ?view⟩,
    fun c => decode_of_opcode_pltw⟩
  case valid => simp [s.pltptr.isLt]
  case view => rw [paletteViewShowsValidEntries, if_pos (by simp [s.pltptr.isLt]), Memory.read_write_same]

/-- Settles O22: PLTW writes PLT_IN and PLT_VALID at PLTPTR only, and of the registers PLTPTR only. -/
theorem pltwChangesNothingElse : Obligations.PltwChangesNothingElse := by
  unfold Obligations.PltwChangesNothingElse
  intro r g b s t hexec
  have hentry : ∀ k, k ≠ s.pltptr.toNat → SamePaletteEntry k s t :=
    fun k hk => execPltw_keeps_paletteEntry hexec hk.symm
  cases hexec
  refine ⟨fun k hk => ⟨(hentry k hk).pltIn_read, ?_⟩, by simp [SameResult, SameErrors, SameEngine, SamePorts]⟩
  obtain ⟨hvalid, -⟩ := hentry k hk
  exact hvalid

/-- Settles O23: with room the pixel at PIXCNT is read back and PIXCNT does not wrap; without room PIXW is the recording of
RASTER_OVERFLOW. -/
theorem pixwAppendsAPixel : Obligations.PixwAppendsAPixel := by
  unfold Obligations.PixwAppendsAPixel
  refine ⟨fun idx s hroom => ?_, fun idx s hfull => ?_, fun c => decode_of_opcode_pixw⟩
  · exact ⟨_, execPixw_of_room hroom idx, Memory.read_write_same _ _ _, pixcnt_add_one_toNat_of_room hroom⟩
  · exact (execPixw_of_full hfull idx).trans (congrArg Host.Outcome.next (raiseError_eq .rasterOverflow s))

/-- Settles O24: with room PIXW writes RASTER at PIXCNT only, and of the registers PIXCNT only. -/
theorem pixwChangesNothingElse : Obligations.PixwChangesNothingElse := by
  unfold Obligations.PixwChangesNothingElse
  intro idx s t hroom hexec
  cases (execPixw_of_room hroom idx).symm.trans hexec
  exact ⟨fun k hk => Memory.read_write_other _ _ hk, by simp [SameResult, SameErrors, SameEngine, SamePorts]⟩

/-- Settles O25: none of the four writes the result or the engine, and with BUSY = 0 a read of a result address is the map's,
which shows the result only. -/
theorem inputCommandsLeaveTheResult : Obligations.InputCommandsLeaveTheResult := by
  unfold Obligations.InputCommandsLeaveTheResult
  intro i s t hi hexec
  obtain ⟨hresult, hbusy, -⟩ := exec_input_sameResult_sameEngine hi hexec
  refine ⟨hbusy, hresult, fun hb a ha => ?_⟩
  rw [memRead_of_not_busy (hbusy.trans hb), memRead_of_not_busy hb, readMap_congr_of_sameResult ha hresult]

/-- Settles O19: SETDIM's meaning is the state with the three registers written, where DIM and PIXCNT read back. -/
theorem setdimStartsANewRaster : Obligations.SetdimStartsANewRaster := by
  unfold Obligations.SetdimStartsANewRaster
  refine ⟨fun w h s => rfl, fun w h s t hexec => ?_, fun c => decode_of_opcode_setdim⟩
  cases hexec
  rw [memRead_dim, zeroExtend_append_bytes, memRead_pixcnt]
  exact ⟨rfl, rfl⟩

/-- Settles O20: PLTPTR's meaning is the state with the pointer written. -/
theorem pltptrSetsThePointer : Obligations.PltptrSetsThePointer := by
  unfold Obligations.PltptrSetsThePointer
  exact ⟨fun p s => rfl, fun c => decode_of_opcode_pltptr⟩

end Sys2Proof.Machine

namespace Sys2Proof.Machine

/-! PROOFS. EncodeFn's checks (42_encode.md R83 to R86), each decided with the ones before it passed, and its result with all
of them passed. -/

section Checks
variable {i : EncodeInput}

theorem maxOf_rasterPixels_le_iff :
    maxOf (rasterPixels i) ≤ Config.maxIndex ↔ ∀ k < numPixels i.w i.h, (i.raster.read k).toNat ≤ 255 := by
  simp [maxOf_le_iff, mem_rasterPixels, Config.maxIndex]

theorem usedSet_any_undefined_iff :
    ((usedSet i).any fun u => !i.pltValid.getLsbD u.toNat) = true ↔
      ∃ u, i.Uses u ∧ i.pltValid.getLsbD u.toNat = false := by
  simp [List.any_eq_true, mem_usedSet_iff]

theorem encodeFn_of_zero_dimension (h : i.w = 0 ∨ i.h = 0) : encodeFn i = .err .badDim := if_pos h

theorem encodeFn_of_incomplete (hw : i.w ≠ 0) (hh : i.h ≠ 0) (hcount : i.pixcnt.toNat ≠ numPixels i.w i.h) :
    encodeFn i = .err .rasterIncomplete := by
  rw [encodeFn, if_neg (not_or.2 ⟨hw, hh⟩), if_pos hcount]

/-- Past the first two checks the two on the pixels are left. -/
theorem encodeFn_of_complete (h : i.Complete) :
    encodeFn i =
      if maxOf (rasterPixels i) > Config.maxIndex then .err .invalidPalette
      else if (usedSet i).any (fun u => !i.pltValid.getLsbD u.toNat) then .err .paletteUndefined
      else encodeChecked i := by
  obtain ⟨hw, hh, hcount⟩ := h
  rw [encodeFn, if_neg (not_or.2 ⟨hw, hh⟩), if_neg (not_not.2 hcount)]

theorem encodeFn_of_large_index (h : i.Complete) (hlarge : ∃ k < numPixels i.w i.h, 255 < (i.raster.read k).toNat) :
    encodeFn i = .err .invalidPalette := by
  have hmax : ¬ maxOf (rasterPixels i) ≤ Config.maxIndex := by simpa [maxOf_rasterPixels_le_iff] using hlarge
  rw [encodeFn_of_complete h, if_pos (Nat.lt_of_not_le hmax)]

section IndicesInBound
variable (h : i.Complete) (hbound : ∀ k < numPixels i.w i.h, (i.raster.read k).toNat ≤ 255)
include h hbound

/-- Past the bound check the one on the palette's valid bits is left. -/
theorem encodeFn_of_indices_in_bound :
    encodeFn i =
      if (usedSet i).any (fun u => !i.pltValid.getLsbD u.toNat) then .err .paletteUndefined else encodeChecked i := by
  rw [encodeFn_of_complete h, if_neg (Nat.not_lt.2 (maxOf_rasterPixels_le_iff.2 hbound))]

theorem encodeFn_of_undefined_entry (hundef : ∃ u, i.Uses u ∧ i.pltValid.getLsbD u.toNat = false) :
    encodeFn i = .err .paletteUndefined := by
  rw [encodeFn_of_indices_in_bound h hbound, if_pos (usedSet_any_undefined_iff.2 hundef)]

theorem encodeFn_of_checks_passed (hvalid : ∀ u, i.Uses u → i.pltValid.getLsbD u.toNat = true) :
    encodeFn i = encodeChecked i := by
  have hdef : ¬ ∃ u, i.Uses u ∧ i.pltValid.getLsbD u.toNat = false := by
    rintro ⟨u, hu, hundef⟩
    simp [hvalid u hu] at hundef
  rw [encodeFn_of_indices_in_bound h hbound, if_neg (mt usedSet_any_undefined_iff.1 hdef)]

end IndicesInBound

end Checks

/-- Settles O30: one lemma for each check, and past all four the result of `encodeChecked`, which is an `Ok`. -/
theorem firstFailingCheckDecides : Obligations.FirstFailingCheckDecides := by
  unfold Obligations.FirstFailingCheckDecides
  refine ⟨fun i => encodeFn_of_zero_dimension, fun i => encodeFn_of_incomplete, fun i => encodeFn_of_large_index,
    fun i => encodeFn_of_undefined_entry, fun i hcomplete hbound hvalid => ?_, rfl, rfl, rfl, rfl⟩
  exact ⟨_, _, _, encodeFn_of_checks_passed hcomplete hbound hvalid⟩

/-! PROOFS. The completion edge (42_encode.md R81, R87, R88): the two commits, and what a read shows without a result. -/

section SameInputs
variable {s t u : State}

theorem SameInputs.refl (s : State) : SameInputs s s := ⟨rfl, rfl, rfl, rfl, rfl, rfl, rfl⟩

theorem SameInputs.trans (hst : SameInputs s t) (htu : SameInputs t u) : SameInputs s u := by
  simp_all [SameInputs]

/-- EncodeFn's inputs (R82) are input image state (10_state.md R29). -/
theorem SameInputs.encodeInput_eq (h : SameInputs s t) : t.encodeInput = s.encodeInput := by
  obtain ⟨hw, hh, hpixcnt, hraster, -, hpltIn, hvalid⟩ := h
  simp only [State.encodeInput, hw, hh, hpixcnt, hraster, hpltIn, hvalid]

end SameInputs

section Completion
variable {s t : State}

theorem completeEncode_of_ok {plt : List Color} {bpp : Nat} {bytes : List Byte}
    (h : encodeFn s.encodeInput = .ok plt bpp bytes) :
    completeEncode s = { commitSuccess plt bpp bytes s with busy := false, encRemaining := 0 } := by
  rw [completeEncode, h]

theorem completeEncode_of_err {e : ErrCode} (h : encodeFn s.encodeInput = .err e) :
    completeEncode s = { commitFailure e s with busy := false, encRemaining := 0 } := by
  rw [completeEncode, h]

theorem completeEncode_resValid_iff :
    (completeEncode s).resValid = true ↔ ∃ plt bpp bytes, encodeFn s.encodeInput = .ok plt bpp bytes := by
  cases h : encodeFn s.encodeInput with
  | ok plt bpp bytes => simp [completeEncode_of_ok h]
  | err e => simp [completeEncode_of_err h]

/-- What a completion commits depends on EncodeFn's inputs only; a failure leaves the arrays as they are, out of reach. -/
theorem completeEncode_result_congr (h : s.encodeInput = t.encodeInput) :
    (completeEncode s).resValid = (completeEncode t).resValid ∧ (completeEncode s).bpp = (completeEncode t).bpp ∧
    (completeEncode s).ncol = (completeEncode t).ncol ∧ (completeEncode s).nbytes = (completeEncode t).nbytes ∧
    ((completeEncode s).resValid = true →
      (completeEncode s).pltOut = (completeEncode t).pltOut ∧ (completeEncode s).bb = (completeEncode t).bb) := by
  cases ht : encodeFn t.encodeInput with
  | ok plt bpp bytes => simp [completeEncode_of_ok ht, completeEncode_of_ok ((congrArg encodeFn h).trans ht)]
  | err e => simp [completeEncode_of_err ht, completeEncode_of_err ((congrArg encodeFn h).trans ht)]

theorem engineEdge_of_due (h : s.encRemaining = 0) : engineEdge s = completeEncode s := by
  rw [engineEdge, h]

theorem engineEdge_of_pending {n : Nat} (h : s.encRemaining = n + 1) : engineEdge s = { s with encRemaining := n } := by
  rw [engineEdge, h]

/-- The inputs are read at the completion edge, and the ports leave them (R81). -/
theorem step_of_due (hb : s.busy = true) (hr : s.pins.rstN = true) (hdue : s.encRemaining = 0) :
    step s = .next (completeEncode (portsEdge s)) := by
  rw [step_of_busy hb hr, engineEdge_of_due ((portsEdge_encRemaining s).trans hdue)]

theorem step_of_pending {n : Nat} (hb : s.busy = true) (hr : s.pins.rstN = true) (hrem : s.encRemaining = n + 1) :
    step s = .next { portsEdge s with encRemaining := n } := by
  rw [step_of_busy hb hr, engineEdge_of_pending ((portsEdge_encRemaining s).trans hrem)]

theorem encodeInput_portsEdge (s : State) : (portsEdge s).encodeInput = s.encodeInput :=
  (portsEdge_sameInputs s).encodeInput_eq

theorem completeEncode_portsEdge_sameInputs (s : State) : SameInputs s (completeEncode (portsEdge s)) :=
  (portsEdge_sameInputs s).trans (completeEncode_sameInputs _)

/-- With the three counts 0 each window is masked whole (20_memory.md R39, R40). -/
theorem readMap_eq_zero_of_no_result {a : Nat} (ha : isResultAddr a = true) (hncol : s.ncol = 0) (hbpp : s.bpp = 0)
    (hnbytes : s.nbytes = 0) : readMap s a = 0 := by
  obtain rfl | rfl | rfl | ⟨k, hk, rfl⟩ | ⟨j, rfl⟩ := isResultAddr_cases ha
  · exact congrArg (BitVec.zeroExtend 32) hbpp
  · exact congrArg (BitVec.zeroExtend 32) hncol
  · exact congrArg (BitVec.zeroExtend 32) hnbytes
  · rw [readMap_pltOutWindow s hk]
    simp [pltOutWindow, hncol]
  · rw [readMap_bbWindow]
    simp [bbWindow, hnbytes]

end Completion

/-- Settles O31: the edge is the success commit, whose numbers fit their registers. -/
theorem successCommitsTheResult : Obligations.SuccessCommitsTheResult := by
  unfold Obligations.SuccessCommitsTheResult
  intro s plt bpp bytes hr hb hdue hok
  have hcommit := completeEncode_of_ok ((congrArg encodeFn (encodeInput_portsEdge s)).trans hok)
  have hinputs := completeEncode_portsEdge_sameInputs s
  obtain ⟨hncol, hbpp, hnbytes⟩ := encodeFn_ok_fits hok
  refine ⟨_, step_of_due hb hr hdue, ?_⟩
  rw [hcommit] at hinputs ⊢
  exact ⟨rfl, rfl, hncol, hbpp, hnbytes, fun k => Memory.lookup_ofValues 0 plt k,
    fun j => Memory.lookup_ofValues 0 bytes j, portsEdge_sameErrors s, hinputs⟩

/-- Settles O32: the edge is the failure commit, and with BUSY = 0 a read of a result address is the map's. -/
theorem failureLeavesNoResult : Obligations.FailureLeavesNoResult := by
  unfold Obligations.FailureLeavesNoResult
  intro s e hr hb hdue herr
  have hcommit := completeEncode_of_err ((congrArg encodeFn (encodeInput_portsEdge s)).trans herr)
  have hinputs := completeEncode_portsEdge_sameInputs s
  refine ⟨_, step_of_due hb hr hdue, ?_⟩
  rw [hcommit] at hinputs ⊢
  refine ⟨rfl, by simp, by simp, by simp, by simp, fun a ha => ?_, by simp, by simp, hinputs⟩
  rw [memRead_of_not_busy rfl, readMap_eq_zero_of_no_result ha (by simp) (by simp) (by simp)]

/-! PROOFS. The run from an accepted ENCODE to its completion (42_encode.md R81, 70_reset_and_hazards.md R142), beside a host
that does not reset the block. -/

section Run
variable {s t : State}

/-- The host's program loses at most its head. -/
theorem hostAfter_suffix (s : State) : hostAfter s <:+ s.host := by
  unfold hostAfter
  cases s.host with
  | nil => exact List.suffix_rfl
  | cons op rest =>
    cases op with
    | drive p => exact List.suffix_cons _ _
    | offer c => dsimp only; split <;> simp
    | wait => dsimp only; split <;> simp

theorem neverResets.hostAfter (h : neverResets s.host) : neverResets (hostAfter s) :=
  fun p hp => h p ((hostAfter_suffix s).subset hp)

theorem neverResets.rstN (h : neverResets s.host) : s.pins.rstN = true := by
  unfold State.pins
  cases hhost : s.host with
  | nil => rfl
  | cons op rest =>
    cases op with
    | drive p => exact h p (by simp [hhost])
    | offer c => rfl
    | wait => rfl

theorem run_one (s : State) : run 1 s = step s := by
  unfold run
  cases step s with
  | next t => rfl
  | fault r => rfl
  | refused r => rfl

theorem run_succ_of_run {n : Nat} (h : run n s = .next t) : run (n + 1) s = step t :=
  (run_add h).trans (run_one t)

section Busy
variable (hb : s.busy = true) (hhost : neverResets s.host)
include hb hhost

theorem run_pending {n : Nat} (hn : n ≤ s.encRemaining) :
    ∃ t, run n s = .next t ∧ t.busy = true ∧ neverResets t.host ∧ t.encRemaining = s.encRemaining - n ∧
      SameInputs s t := by
  induction n with
  | zero => exact ⟨s, rfl, hb, hhost, rfl, .refl s⟩
  | succ n ih =>
    obtain ⟨t, hrun, hbusy, hnever, hrem, hinputs⟩ := ih (Nat.le_of_succ_le hn)
    have hrem : t.encRemaining = (s.encRemaining - (n + 1)) + 1 := by omega
    exact ⟨_, (run_succ_of_run hrun).trans (step_of_pending hbusy hnever.rstN hrem),
      (portsEdge_busy t).trans hbusy, hnever.hostAfter, rfl, hinputs.trans (portsEdge_sameInputs t)⟩

/-- The run to the completion ends in the completion of a state with the inputs at its start. -/
theorem run_completes : ∃ t, run (s.encRemaining + 1) s = .next (completeEncode t) ∧ SameInputs s t := by
  obtain ⟨t, hrun, hbusy, hnever, hrem, hinputs⟩ := run_pending hb hhost le_rfl
  have hdue : t.encRemaining = 0 := hrem.trans (Nat.sub_self _)
  exact ⟨portsEdge t, (run_succ_of_run hrun).trans (step_of_due hbusy hnever.rstN hdue),
    hinputs.trans (portsEdge_sameInputs t)⟩

end Busy

end Run

/-- Settles O33: each edge before the last takes one off the count, by induction on their number, and the last is the
completion. -/
theorem encodeCompletesAtItsEdge : Obligations.EncodeCompletesAtItsEdge := by
  unfold Obligations.EncodeCompletesAtItsEdge
  refine fun s hb hhost => ⟨fun n hn => ?_, ?_⟩
  · obtain ⟨t, hrun, hbusy, -, hrem, hinputs⟩ := run_pending hb hhost hn
    exact ⟨t, hrun, hbusy, hrem, hinputs⟩
  · obtain ⟨t, hrun, hinputs⟩ := run_completes hb hhost
    refine ⟨_, hrun, completeEncode_busy t, hinputs.trans (completeEncode_sameInputs t), ?_⟩
    rw [completeEncode_resValid_iff, hinputs.encodeInput_eq]

/-- Settles O34: each run ends in a completion over the inputs at its start, and a completion's result depends on nothing
else. -/
theorem equalInputsGiveEqualResults : Obligations.EqualInputsGiveEqualResults := by
  unfold Obligations.EqualInputsGiveEqualResults
  intro s₁ s₂ t₁ t₂ hb₁ hb₂ hhost₁ hhost₂ heq hrun₁ hrun₂
  obtain ⟨u₁, hend₁, hinputs₁⟩ := run_completes hb₁ hhost₁
  obtain ⟨u₂, hend₂, hinputs₂⟩ := run_completes hb₂ hhost₂
  cases hend₁.symm.trans hrun₁
  cases hend₂.symm.trans hrun₂
  have hinput : u₁.encodeInput = u₂.encodeInput := by rw [hinputs₁.encodeInput_eq, hinputs₂.encodeInput_eq, heq]
  exact completeEncode_result_congr hinput

/-- Settles O27: ENCODE's meaning sets the engine, and the latency is at least 1, so the count left is one less. -/
theorem encodeStartsTheEngine : Obligations.EncodeStartsTheEngine := by
  unfold Obligations.EncodeStartsTheEngine
  intro s
  have hpos : 0 < Config.encLatency s := Nat.succ_pos _
  exact ⟨_, rfl, rfl, rfl, execEncode_sameInputs s rfl, ⟨rfl, rfl⟩, rfl, rfl, Nat.sub_add_cancel hpos⟩

end Sys2Proof.Machine

namespace Sys2Proof.Machine

/-! PROOFS. The colours (43_palette.md R90) and the used set (R91): a colour is its alpha byte beside the entry, and once the
bound check has passed an index byte is the whole index. -/

/-- A colour's four bytes, the alpha byte beside the RGB triple. -/
theorem colour_eq_append (m : Memory 24) (i : BitVec 8) : colour m i = 0xFF#8 ++ m.read i.toNat := by
  rw [← BitVec.setWidth_eq (0xFF#8 ++ m.read i.toNat), BitVec.setWidth_append_eq_shiftLeft_setWidth_or]
  rfl

/-- A byte of the RGB triple is the colour's byte at the same place. -/
theorem colour_extractLsb'_of_le (m : Memory 24) (i : BitVec 8) {start len : Nat} (h : start + len ≤ 24) :
    (colour m i).extractLsb' start len = (m.read i.toNat).extractLsb' start len := by
  rw [colour_eq_append, BitVec.extractLsb'_append_eq_of_add_le h]

theorem colour_congr {m m' : Memory 24} {u : BitVec 8} (h : m.read u.toNat = m'.read u.toNat) :
    colour m u = colour m' u := by
  rw [colour, colour, h]

/-- Settles O36: the colour is its alpha byte beside the entry, and the entry's bytes are below bit 24. -/
theorem colourHasAlphaFF : Obligations.ColourHasAlphaFF := by
  unfold Obligations.ColourHasAlphaFF
  intro m i
  have halpha : (colour m i).extractLsb' 24 8 = 0xFF#8 := by
    rw [colour_eq_append]
    exact BitVec.extractLsb'_append_eq_left
  exact ⟨rfl, halpha, colour_extractLsb'_of_le m i (by decide), colour_extractLsb'_of_le m i (by decide),
    colour_extractLsb'_of_le m i (by decide)⟩

/-- The maximum of a list that is not empty is one of its values. -/
theorem exists_mem_toNat_eq_maxOf {n : Nat} {l : List (BitVec n)} (h : l ≠ []) : ∃ x ∈ l, x.toNat = maxOf l := by
  induction l with
  | nil => exact absurd rfl h
  | cons y l ih =>
    rcases le_total (maxOf l) y.toNat with hle | hle
    · exact ⟨y, List.mem_cons_self, (max_eq_left hle).symm⟩
    · rcases eq_or_ne l [] with rfl | hl
      · exact ⟨y, List.mem_cons_self, by simp [maxOf]⟩
      · obtain ⟨x, hx, hmax⟩ := ih hl
        exact ⟨x, List.mem_cons_of_mem y hx, hmax.trans (max_eq_right hle).symm⟩

theorem indexByte_toNat (x : PixelIndex) : (indexByte x).toNat = x.toNat % 256 := by
  simp [indexByte]

section UsedSet
variable {i : EncodeInput}

theorem usedSet_nodup (i : EncodeInput) : (usedSet i).Nodup := (sortAscending_rising _).nodup

theorem rasterPixels_ne_nil (h : 1 ≤ numPixels i.w i.h) : rasterPixels i ≠ [] :=
  List.ne_nil_of_mem (mem_rasterPixels.2 ⟨0, h, rfl⟩)

theorem usedSet_length_pos (h : 1 ≤ numPixels i.w i.h) : 1 ≤ (usedSet i).length :=
  List.length_pos_of_mem (mem_usedSet_iff.2 ⟨0, h, rfl⟩)

theorem mem_usedSet_of_mem_rasterPixels {x : PixelIndex} (h : x ∈ rasterPixels i) : indexByte x ∈ usedSet i :=
  mem_sortAscending.2 (List.mem_map_of_mem h)

/-- No used index is above `max_index`, even where the bound check fails: an index byte is at most its index. -/
theorem toNat_le_maxOf_of_mem_usedSet {v : BitVec 8} (h : v ∈ usedSet i) : v.toNat ≤ maxOf (rasterPixels i) := by
  obtain ⟨x, hx, rfl⟩ := List.mem_map.1 (mem_sortAscending.1 h)
  calc (indexByte x).toNat = x.toNat % 256 := indexByte_toNat x
    _ ≤ x.toNat := Nat.mod_le _ _
    _ ≤ maxOf (rasterPixels i) := maxOf_le_iff.1 le_rfl x hx

/-- Within the bound `max_index` is a used index. -/
theorem exists_mem_usedSet_toNat_eq_maxOf (h : 1 ≤ numPixels i.w i.h) (hbound : maxOf (rasterPixels i) ≤ 255) :
    ∃ u ∈ usedSet i, u.toNat = maxOf (rasterPixels i) := by
  obtain ⟨x, hx, hmax⟩ := exists_mem_toNat_eq_maxOf (rasterPixels_ne_nil h)
  have hlt : x.toNat < 256 := by omega
  exact ⟨indexByte x, mem_usedSet_of_mem_rasterPixels hx, by rw [indexByte_toNat, Nat.mod_eq_of_lt hlt, hmax]⟩

end UsedSet

/-- Settles O37: the sort keeps the members and drops repeats, and the largest pixel index is used. -/
theorem usedSetIsThePixelsIndices : Obligations.UsedSetIsThePixelsIndices := by
  unfold Obligations.UsedSetIsThePixelsIndices
  refine fun i => ⟨fun u => mem_usedSet_iff, usedSet_nodup i, length_usedSet_le i, usedSet_length_pos,
    fun hpix hbound => ?_⟩
  obtain ⟨u, hu, hmax⟩ := exists_mem_usedSet_toNat_eq_maxOf hpix hbound
  exact ⟨u, hu, hmax, fun v hv => (toNat_le_maxOf_of_mem_usedSet hv).trans_eq hmax.symm⟩

/-! PROOFS. The palette of a result and the new indices (43_palette.md R92 to R96). -/

theorem lt_clog2_iff {n k : Nat} : k < clog2 n ↔ 2 ^ k < n := by
  rw [← Nat.not_le, clog2_le_iff, Nat.not_le]

theorem length_compactedPalette_le (used : List (BitVec 8)) (m : Memory 24) :
    (compactedPalette used m).length ≤ used.length :=
  (length_sortAscending_le _).trans_eq (List.length_map _)

section Result
variable {i : EncodeInput} {plt : List Color} {bpp : Nat} {bytes : List Byte}

theorem encodeFn_ok_mem_palette_iff (h : encodeFn i = .ok plt bpp bytes) {c : Color} :
    c ∈ plt ↔ ∃ u, i.Uses u ∧ colour i.pltIn u = c := by
  obtain ⟨-, -, -, rfl, -, -⟩ := encodeFn_ok h
  simp [compactedPalette, mem_usedSet_iff]

theorem encodeFn_ok_palette_length_le_usedSet (h : encodeFn i = .ok plt bpp bytes) :
    plt.length ≤ (usedSet i).length := by
  obtain ⟨-, -, -, rfl, -, -⟩ := encodeFn_ok h
  exact length_compactedPalette_le _ _

/-- The palette's positions are the numbers that `bpp` bits can hold, or fewer (R96). -/
theorem encodeFn_ok_palette_length_le_two_pow (h : encodeFn i = .ok plt bpp bytes) : plt.length ≤ 2 ^ bpp := by
  rw [encodeFn_ok_bpp h]
  exact le_two_pow_clog2 _

theorem encodeFn_ok_bpp_eq_zero_iff (h : encodeFn i = .ok plt bpp bytes) : bpp = 0 ↔ plt.length = 1 := by
  have hpos : 1 ≤ plt.length := encodeFn_ok_palette_length_pos h
  have hzero : clog2 plt.length ≤ 0 ↔ plt.length ≤ 1 := clog2_le_iff
  rw [encodeFn_ok_bpp h]
  omega

theorem encodeFn_ok_two_pow_lt (h : encodeFn i = .ok plt bpp bytes) (hpos : 0 < bpp) :
    2 ^ (bpp - 1) < plt.length := by
  rw [encodeFn_ok_bpp h] at hpos ⊢
  exact lt_clog2_iff.1 (Nat.sub_one_lt_of_lt hpos)

end Result

/-- In a strictly rising palette a colour's new index is its only position (R94). -/
theorem eq_remap_of_getElem? {plt : List Color} {m : Memory 24} {u : BitVec 8} {k : Nat} (hrising : Rising plt)
    (h : plt[k]? = some (colour m u)) : k = remap plt m u := by
  obtain ⟨hk, hget⟩ := List.getElem?_eq_some_iff.1 h
  rw [remap, ← hget, hrising.nodup.idxOf_getElem k hk]

/-- Settles O38: the palette is a sort of the used indices' colours. -/
theorem paletteIsTheSortedUsedColours : Obligations.PaletteIsTheSortedUsedColours := by
  unfold Obligations.PaletteIsTheSortedUsedColours
  exact fun i plt bpp bytes hok => ⟨encodeFn_ok_palette_rising hok, fun c => encodeFn_ok_mem_palette_iff hok⟩

/-- Settles O39: a successful image has a pixel, and the sort only drops colours. -/
theorem paletteLengthIsBounded : Obligations.PaletteLengthIsBounded := by
  unfold Obligations.PaletteLengthIsBounded
  exact fun i plt bpp bytes hok =>
    ⟨encodeFn_ok_palette_length_pos hok, encodeFn_ok_palette_length_le_usedSet hok, length_usedSet_le i⟩

/-- Settles O40: a used index's colour is in the palette, which is strictly rising and has at most 2^bpp positions. -/
theorem remapFindsTheColour : Obligations.RemapFindsTheColour := by
  unfold Obligations.RemapFindsTheColour
  intro i plt bpp bytes hok u hu
  have hmem : colour i.pltIn u ∈ plt := (encodeFn_ok_mem_palette_iff hok).2 ⟨u, hu, rfl⟩
  have hlt : remap plt i.pltIn u < plt.length := List.idxOf_lt_length_iff.2 hmem
  exact ⟨List.getElem?_idxOf hmem, fun k => eq_remap_of_getElem? (encodeFn_ok_palette_rising hok),
    hlt.trans_le (encodeFn_ok_palette_length_le_two_pow hok), fun v hv => congrArg plt.idxOf hv⟩

/-- Settles O41: `clog2` is the least width, and its bounds are read off the palette's length. -/
theorem bitWidthIsTheLeast : Obligations.BitWidthIsTheLeast := by
  unfold Obligations.BitWidthIsTheLeast
  exact fun i plt bpp bytes hok =>
    ⟨encodeFn_ok_bpp hok, encodeFn_ok_palette_length_le_two_pow hok, encodeFn_ok_two_pow_lt hok,
      encodeFn_ok_bpp_eq_zero_iff hok, encodeFn_ok_bpp_le hok⟩

/-! PROOFS. What EncodeFn depends on (43_palette.md R97): the pixels of the image, and the palette at the used indices. -/

section Congr
variable {i j : EncodeInput}

theorem rasterPixels_congr (hw : i.w = j.w) (hh : i.h = j.h)
    (hraster : ∀ k < numPixels i.w i.h, i.raster.read k = j.raster.read k) : rasterPixels i = rasterPixels j := by
  unfold rasterPixels
  rw [← hw, ← hh]
  exact List.map_congr_left fun k hk => hraster k (List.mem_range.1 hk)

section Pixels
variable (hpix : rasterPixels i = rasterPixels j)
include hpix

theorem usedSet_congr : usedSet i = usedSet j := by
  rw [usedSet, usedSet, hpix]

/-- The last check looks at the valid bits of the used indices only. -/
theorem usedSet_any_undefined_congr
    (hvalid : ∀ u ∈ usedSet i, i.pltValid.getLsbD u.toNat = j.pltValid.getLsbD u.toNat) :
    ((usedSet i).any fun u => !i.pltValid.getLsbD u.toNat) = (usedSet j).any fun u => !j.pltValid.getLsbD u.toNat := by
  rw [← usedSet_congr hpix, Bool.eq_iff_iff, List.any_eq_true, List.any_eq_true]
  exact exists_congr fun u => and_congr_right fun hu => by rw [hvalid u hu]

/-- The palette and the new indices look at the colours of the used indices only. -/
theorem encodeChecked_congr (hcolour : ∀ u ∈ usedSet i, colour i.pltIn u = colour j.pltIn u) :
    encodeChecked i = encodeChecked j := by
  have hplt : compactedPalette (usedSet i) i.pltIn = compactedPalette (usedSet j) j.pltIn := by
    rw [← usedSet_congr hpix]
    exact congrArg sortAscending (List.map_congr_left hcolour)
  have hremap (plt : List Color) : remappedRaster i plt = remappedRaster j plt := by
    unfold remappedRaster
    rw [← hpix]
    exact List.map_congr_left fun x hx => congrArg plt.idxOf (hcolour _ (mem_usedSet_of_mem_rasterPixels hx))
  simp only [encodeChecked, hplt, hremap]

end Pixels

end Congr

/-- Settles O42: the two inputs have the same pixels, hence the same used set, and each check and the result look at the palette
there only. -/
theorem unusedEntriesChangeNothing : Obligations.UnusedEntriesChangeNothing := by
  unfold Obligations.UnusedEntriesChangeNothing
  intro i j hw hh hpixcnt hraster hentries
  have hpix : rasterPixels i = rasterPixels j := rasterPixels_congr hw hh hraster
  have hundef := usedSet_any_undefined_congr hpix fun u hu => (hentries u (mem_usedSet_iff.1 hu)).2
  have hchecked := encodeChecked_congr hpix fun u hu => colour_congr (hentries u (mem_usedSet_iff.1 hu)).1
  rw [encodeFn, encodeFn, hw, hh, hpixcnt, hpix, hundef, hchecked]

end Sys2Proof.Machine

namespace Sys2Proof.Machine

/-! PROOFS. The packer's law (44_pack.md R101 to R106): unpacking what was packed gives back the fields. The stream's bits are
read off the packed bytes one by one, and a field is the number that its bits spell. -/

/-- A packed bit is the stream's bit at its place; both are 0 past the last field (R102). -/
theorem packedBit_pack (bpp : Nat) (vs : List Nat) (q : Nat) :
    packedBit (pack bpp vs) q = (streamBits bpp vs).getD q false := by
  rw [packedBit, pack]
  rcases Nat.lt_or_ge (q / 8) (ceilDiv (vs.length * bpp) 8) with hq | hq
  · rw [bytesOfBits_getLsbD _ hq (Nat.mod_lt q (by decide)), Nat.div_add_mod]
  · have hend : vs.length * bpp ≤ q :=
      calc vs.length * bpp ≤ ceilDiv (vs.length * bpp) 8 * 8 := le_ceilDiv_mul _ (by decide)
        _ ≤ q / 8 * 8 := Nat.mul_le_mul_right 8 hq
        _ ≤ q := Nat.div_mul_le_self q 8
    rw [List.getD_eq_default _ _ (by rwa [length_bytesOfBits]), List.getD_eq_default _ _ (by rwa [length_streamBits])]
    exact BitVec.getLsbD_zero

theorem testBit_unpackField (bytes : List Byte) (bpp t k : Nat) :
    (unpackField bytes bpp t).testBit k = if k < bpp then packedBit bytes (t * bpp + (bpp - 1 - k)) else false := by
  have hbits : unpackField bytes bpp t =
      ((List.range bpp).map fun m => packedBit bytes (t * bpp + m)).foldl (fun a b => 2 * a + b.toNat) 0 := by
    rw [List.foldl_map, unpackField]
  rw [hbits, testBit_foldl_bits, List.length_map, List.length_range, Nat.zero_testBit]
  split
  · next hk => simp [List.getD, show bpp - 1 - k < bpp by omega]
  · rfl

/-- The field at `t` is read back if it fits in `bpp` bits. -/
theorem unpackField_pack {bpp t : Nat} {vs : List Nat} (ht : t < vs.length) (hfits : vs[t] < 2 ^ bpp) :
    unpackField (pack bpp vs) bpp t = vs[t] := by
  apply Nat.eq_of_testBit_eq
  intro k
  rw [testBit_unpackField]
  split
  · next hk =>
    rw [packedBit_pack, streamBits_field vs t ht (by omega), List.getD_eq_getElem _ _ ht,
      show bpp - 1 - (bpp - 1 - k) = k by omega]
  · next hk =>
    have hlt : vs[t] < 2 ^ k := hfits.trans_le (Nat.pow_le_pow_right (by decide) (Nat.le_of_not_lt hk))
    exact (Nat.testBit_lt_two_pow hlt).symm

theorem unpack_pack {bpp : Nat} {vs : List Nat} (hfits : ∀ v ∈ vs, v < 2 ^ bpp) :
    unpack (pack bpp vs) vs.length bpp = vs := by
  refine List.ext_getElem (by simp [unpack]) fun t _ ht => ?_
  simp only [unpack, List.getElem_map, List.getElem_range]
  exact unpackField_pack ht (hfits _ (List.getElem_mem ht))

/-- Bit `q` of the stream is bit bpp − 1 − (q mod bpp) of field q div bpp (R101). -/
theorem streamBits_getD {bpp q : Nat} {vs : List Nat} (hq : q < vs.length * bpp) :
    (streamBits bpp vs).getD q false = (vs.getD (q / bpp) 0).testBit (bpp - 1 - q % bpp) := by
  have hbpp : 0 < bpp := Nat.pos_of_mul_pos_left (Nat.zero_lt_of_lt hq)
  have hfield := streamBits_field vs (q / bpp) ((Nat.div_lt_iff_lt_mul hbpp).2 hq) (Nat.mod_lt q hbpp)
  rwa [Nat.div_add_mod'] at hfield

/-! PROOFS. What the packer is given (44_pack.md R100): the new indices of the pixels, last pixel first. -/

theorem remappedRaster_eq_map_newIndex (i : EncodeInput) (plt : List Color) :
    remappedRaster i plt = (List.range (numPixels i.w i.h)).map (i.newIndex plt) :=
  List.map_map

@[simp] theorem length_traversal_remappedRaster (i : EncodeInput) (plt : List Color) :
    (traversal (remappedRaster i plt)).length = numPixels i.w i.h := by
  simp [traversal, remappedRaster_eq_map_newIndex]

/-- Field `t` of the stream is the new index of pixel N − 1 − t. -/
theorem traversal_remappedRaster_getElem? {i : EncodeInput} {t : Nat} (plt : List Color) (ht : t < numPixels i.w i.h) :
    (traversal (remappedRaster i plt))[t]? = some (i.newIndex plt (numPixels i.w i.h - 1 - t)) := by
  rw [traversal, remappedRaster_eq_map_newIndex, List.getElem?_reverse (by simpa using ht)]
  simp [show numPixels i.w i.h - 1 - t < numPixels i.w i.h by omega]

section Packed
variable {i : EncodeInput} {plt : List Color} {bpp : Nat} {bytes : List Byte}

theorem encodeFn_ok_bytes (h : encodeFn i = .ok plt bpp bytes) : bytes = pack bpp (traversal (remappedRaster i plt)) := by
  obtain ⟨-, -, -, -, -, hbytes⟩ := encodeFn_ok h
  exact hbytes

/-- Every field fits in its `bpp` bits (43_palette.md R96.2). -/
theorem encodeFn_ok_field_lt (h : encodeFn i = .ok plt bpp bytes) {v : Nat}
    (hv : v ∈ traversal (remappedRaster i plt)) : v < 2 ^ bpp := by
  rw [traversal, List.mem_reverse, remappedRaster_eq_map_newIndex] at hv
  obtain ⟨k, hk, rfl⟩ := List.mem_map.1 hv
  obtain ⟨-, -, hlt, -⟩ := remapFindsTheColour i plt bpp bytes h _ ⟨k, List.mem_range.1 hk, rfl⟩
  exact hlt

/-- R105 for the whole image: the unpacker gives back the remapped raster, reversed. -/
theorem encodeFn_ok_unpack (h : encodeFn i = .ok plt bpp bytes) :
    unpack bytes (numPixels i.w i.h) bpp = traversal (remappedRaster i plt) := by
  rw [encodeFn_ok_bytes h, ← length_traversal_remappedRaster i plt, unpack_pack fun v => encodeFn_ok_field_lt h]

/-- A bit of the result's bytes, by its place in the stream: a bit of a new index, or 0 past the last one. -/
theorem encodeFn_ok_packedBit (h : encodeFn i = .ok plt bpp bytes) (q : Nat) :
    packedBit bytes q =
      if q < numPixels i.w i.h * bpp then
        (i.newIndex plt (numPixels i.w i.h - 1 - q / bpp)).testBit (bpp - 1 - q % bpp)
      else false := by
  rw [encodeFn_ok_bytes h, packedBit_pack]
  split
  · next hq =>
    have ht : q / bpp < numPixels i.w i.h := Nat.div_lt_of_lt_mul (by rwa [Nat.mul_comm])
    rw [streamBits_getD (by simpa using hq), List.getD_eq_getElem?_getD, traversal_remappedRaster_getElem? plt ht,
      Option.getD_some]
  · next hq => exact List.getD_eq_default _ _ (by simpa using hq)

end Packed

theorem packedBit_mul_add {b : Nat} (bytes : List Byte) (j : Nat) (hb : b < 8) :
    packedBit bytes (8 * j + b) = (bytes.getD j 0).getLsbD (7 - b) := by
  rw [packedBit, show (8 * j + b) / 8 = j by omega, show (8 * j + b) % 8 = b by omega]

/-- Settles O45: the unpacker inverts the packer since every new index fits its field, and reversing twice is the identity;
the palette has the colour at the new index by O40. -/
theorem unpackingRecoversEveryPixel : Obligations.UnpackingRecoversEveryPixel := by
  unfold Obligations.UnpackingRecoversEveryPixel
  intro i plt bpp bytes hok k hk
  obtain ⟨hcolour, -⟩ := remapFindsTheColour i plt bpp bytes hok _ ⟨k, hk, rfl⟩
  refine ⟨?_, hcolour⟩
  rw [encodeFn_ok_unpack hok, traversal_remappedRaster_getElem? plt (by omega),
    show numPixels i.w i.h - 1 - (numPixels i.w i.h - 1 - k) = k by omega]

/-- Settles O43: bit 7 − b of byte j is the stream's bit 8j + b. -/
theorem packedBitsAreReversedFields : Obligations.PackedBitsAreReversedFields := by
  unfold Obligations.PackedBitsAreReversedFields
  intro i plt bpp bytes hok j _ b hb
  rw [← packedBit_mul_add bytes j hb, encodeFn_ok_packedBit hok]

/-- Settles O44: the count of bytes is the packer's, and with no bits per pixel it is 0. -/
theorem byteCountIsTheCeiling : Obligations.ByteCountIsTheCeiling := by
  unfold Obligations.ByteCountIsTheCeiling
  intro i plt bpp bytes hok
  have hlen : bytes.length = ceilDiv (numPixels i.w i.h * bpp) 8 := encodeFn_ok_bytes_length hok
  refine ⟨hlen, encodeFn_ok_bytes_length_le hok, fun hone => ?_⟩
  have hbpp : bpp = 0 := (encodeFn_ok_bpp_eq_zero_iff hok).2 hone
  rw [hbpp, Nat.mul_zero] at hlen
  exact ⟨hbpp, List.length_eq_zero_iff.1 hlen⟩

/-- Settles O46: the example is one fixed input, so encoding it is a computation. -/
theorem workedExampleEncodes : Obligations.WorkedExampleEncodes := by
  unfold Obligations.WorkedExampleEncodes
  decide

end Sys2Proof.Machine

namespace Sys2Proof.Machine

/-! PROOFS. Every edge answers a next state (60_exceptions.md R112, R116), and an idle edge moves the ports only (R124). -/

section Edge
variable {s : State}

theorem step_of_reset (hr : s.pins.rstN = false) : step s = .next (applyReset (portsEdge s)) := if_pos hr

theorem step_of_idle (hr : s.pins.rstN = true) (hb : s.busy = false) (hv : s.pins.cmdValid = false) :
    step s = .next (portsEdge s) := by
  have hpins : (hostPins s.host).rstN = true := hr
  have hnone : (hostPins s.host).cmdValid = false := hv
  simp [step, clockEdge, blockEdge, hpins, hb, hnone]

end Edge

/-- No word ends in a fault or a refusal: a command has its meaning, an ILLEGAL word records its error. -/
theorem execute_answers (d : Decoded) (s : State) : ∃ t, execute d s = .next t := by
  cases d with
  | instr i => exact exec_answers i s
  | illegalOpcode | illegalReserved => exact ⟨_, rfl⟩

/-- Settles O13: an edge is a reset, the engine's, an acceptance or idle, and each of them answers a next state. -/
theorem everyStepAnswersNext : Obligations.EveryStepAnswersNext := by
  unfold Obligations.EveryStepAnswersNext
  intro s
  cases hr : s.pins.rstN with
  | false => exact ⟨_, step_of_reset hr⟩
  | true =>
    cases hb : s.busy with
    | true => exact ⟨_, step_of_busy hb hr⟩
    | false =>
      cases hv : s.pins.cmdValid with
      | true =>
        rw [step_of_accepts (accepts_iff.2 ⟨hr, hb, hv, rfl⟩)]
        exact execute_answers _ _
      | false => exact ⟨_, step_of_idle hr hb hv⟩

/-- Settles O12: an idle edge is the ports', and with BUSY = 0 they draw nothing. -/
theorem idleEdgeKeepsState : Obligations.IdleEdgeKeepsState := by
  unfold Obligations.IdleEdgeKeepsState
  intro s hr hb hv
  rw [step_of_idle hr hb hv, portsEdge_of_not_busy hb]

/-! PROOFS. The error record (60_exceptions.md R110, R111, R114): what each command, the engine and so an edge does to it, said
once as unchanged, cleared, or a raised error with its cause. -/

section ErrorRecord
variable {s t : State}

theorem raiseError_of_no_error (e : ErrCode) (herr : s.err = false) :
    raiseError e s = { s with err := true, errcode := e.code } := by
  rw [raiseError_eq, herr]
  rfl

theorem raiseError_of_error (e : ErrCode) (herr : s.err = true) : raiseError e s = s := if_pos herr

/-- The engine raises none of the errors of the command port, codes 1 and 2 (R114). -/
theorem encodeFn_err_code {i : EncodeInput} {e : ErrCode} (h : encodeFn i = .err e) :
    3 ≤ e.code.toNat ∧ e.code.toNat ≤ 6 := by
  unfold encodeFn at h
  split at h
  · cases h; decide
  split at h
  · cases h; decide
  split at h
  · cases h; decide
  split at h
  · cases h; decide
  · cases h

/-- What raises error `e` at the edge that ends the present cycle (R110). -/
inductive State.Raises (s : State) : ErrCode → Prop where
  | illegalCmd {c : Word} (hacc : s.accepts c) (hill : (decode c).instr? = none) : s.Raises .illegalCmd
  | rasterOverflow {c : Word} {idx : PixelIndex} (hacc : s.accepts c) (hdec : decode c = .instr (.pixw idx))
      (hfull : numPixels s.w s.h ≤ s.pixcnt.toNat) : s.Raises .rasterOverflow
  | encodeFailure {e : ErrCode} (hb : s.busy = true) (hdue : s.encRemaining = 0)
      (herr : encodeFn s.encodeInput = .err e) : s.Raises e

/-- The edge that ends the present cycle clears the error record: reset, CLEAR or CLRERR (R111). -/
def State.ClearsErrors (s : State) : Prop :=
  s.pins.rstN = false ∨ ∃ c, s.accepts c ∧ (decode c = .instr .clear ∨ decode c = .instr .clrerr)

theorem exec_errors_cases {i : Instr} (h : exec i s = .next t) :
    SameErrors s t ∨ ((i = .clear ∨ i = .clrerr) ∧ t.err = false) ∨
    ∃ idx, i = .pixw idx ∧ numPixels s.w s.h ≤ s.pixcnt.toNat ∧ t = raiseError .rasterOverflow s := by
  cases i with
  | clear => cases h; exact .inr (.inl ⟨.inl rfl, rfl⟩)
  | clrerr => cases h; exact .inr (.inl ⟨.inr rfl, rfl⟩)
  | pixw idx =>
    rcases execPixw_cases h with ⟨-, rfl⟩ | ⟨hfull, ht⟩
    · exact .inl ⟨rfl, rfl⟩
    · exact .inr (.inr ⟨idx, rfl, Nat.le_of_not_lt hfull, ht⟩)
  | nop | setdim w h | pltptr p | pltw r g b | encode => cases h; exact .inl ⟨rfl, rfl⟩

theorem engineEdge_errors_cases (s : State) :
    SameErrors s (engineEdge s) ∨
    ∃ e, s.encRemaining = 0 ∧ encodeFn s.encodeInput = .err e ∧ SameErrors (raiseError e s) (engineEdge s) := by
  rcases engineEdge_cases s with ⟨hdue, heq⟩ | ⟨n, -, heq⟩
  · rcases completeEncode_cases s with ⟨plt, bpp, bytes, -, hcommit⟩ | ⟨e, herr, hcommit⟩
    · exact .inl (by simp [SameErrors, heq, hcommit])
    · exact .inr ⟨e, hdue, herr, by simp [SameErrors, heq, hcommit]⟩
  · exact .inl (by simp [SameErrors, heq])

theorem sameErrors_raiseError_portsEdge (e : ErrCode) (s : State) :
    SameErrors (raiseError e s) (raiseError e (portsEdge s)) := by simp [SameErrors]

/-- An edge leaves the error record, clears it, or raises an error whose cause is there. -/
theorem step_errors_cases (h : step s = .next t) :
    SameErrors s t ∨ (s.ClearsErrors ∧ t.err = false) ∨ ∃ e, s.Raises e ∧ SameErrors (raiseError e s) t := by
  cases hr : s.pins.rstN with
  | false =>
    cases (step_of_reset hr).symm.trans h
    exact .inr (.inl ⟨.inl hr, rfl⟩)
  | true =>
    rcases step_cases_without_reset h hr with
      ⟨hb, rfl⟩ | ⟨c, i, hacc, hdec, hexec⟩ | ⟨c, hacc, hill, rfl⟩ | ⟨-, rfl⟩
    · rcases engineEdge_errors_cases (portsEdge s) with hsame | ⟨e, hdue, herr, hsame⟩
      · exact .inl (by simpa [SameErrors] using hsame)
      · rw [portsEdge_encRemaining] at hdue
        rw [encodeInput_portsEdge] at herr
        exact .inr (.inr ⟨e, .encodeFailure hb hdue herr, by simpa [SameErrors] using hsame⟩)
    · rcases exec_errors_cases hexec with hsame | ⟨hi, hclear⟩ | ⟨idx, rfl, hfull, rfl⟩
      · exact .inl (by simpa [SameErrors] using hsame)
      · exact .inr (.inl ⟨.inr ⟨c, hacc, by simpa [hdec] using hi⟩, hclear⟩)
      · exact .inr (.inr ⟨_, .rasterOverflow hacc hdec (by simpa using hfull), sameErrors_raiseError_portsEdge _ s⟩)
    · exact .inr (.inr ⟨_, .illegalCmd hacc hill, sameErrors_raiseError_portsEdge _ s⟩)
    · exact .inl (portsEdge_sameErrors s)

end ErrorRecord

/-- Settles O47: an edge that does not clear the record leaves it or raises an error, and with ERR = 1 raising one changes
nothing. -/
theorem errorRecordIsSticky : Obligations.ErrorRecordIsSticky := by
  unfold Obligations.ErrorRecordIsSticky
  refine ⟨fun e s => raiseError_of_no_error e, fun e s => raiseError_of_error e, fun s t hstep herr hr hacc => ?_⟩
  have hkept : SameErrors s t := by
    rcases step_errors_cases hstep with hsame | ⟨hlow | ⟨c, hc, hclear | hclrerr⟩, -⟩ | ⟨e, -, hraised⟩
    · exact hsame
    · simp [hr] at hlow
    · exact absurd hclear (hacc c hc).1
    · exact absurd hclrerr (hacc c hc).2
    · rwa [raiseError_of_error e herr] at hraised
  exact ⟨hkept.1.trans herr, hkept.2⟩

/-- Settles O48: ERR rises only at an edge that raises an error, whose code is recorded because ERR was 0. -/
theorem errorsComeFromTheirCauses : Obligations.ErrorsComeFromTheirCauses := by
  unfold Obligations.ErrorsComeFromTheirCauses
  intro s t hstep hno hyes
  rcases step_errors_cases hstep with ⟨hsame, -⟩ | ⟨-, hclear⟩ | ⟨e, hraises, -, hcode⟩
  · simp [hsame, hno] at hyes
  · simp [hclear] at hyes
  · rw [raiseError_of_no_error e hno] at hcode
    cases hraises with
    | illegalCmd hacc hill => exact .inl ⟨_, hacc, hill, hcode⟩
    | rasterOverflow hacc hdec hfull => exact .inr (.inl ⟨_, _, hacc, hdec, hfull, hcode⟩)
    | encodeFailure hb hdue herr =>
      exact .inr (.inr ⟨e, hb, hdue, herr, hcode, by simpa [hcode] using encodeFn_err_code herr⟩)

end Sys2Proof.Machine

namespace Sys2Proof.Machine

/-! PROOFS. What holds a command off: BUSY (70_reset_and_hazards.md R135) and the reset edge (R130, R132). -/

theorem cmdReady_of_busy {s : State} (hb : s.busy = true) (p : Pins) : cmdReady p s = false := by
  simp [cmdReady, hb]

theorem cmdReady_of_reset {p : Pins} (hr : p.rstN = false) (s : State) : cmdReady p s = false := by
  simp [cmdReady, hr]

theorem not_accepts_of_not_cmdReady {s : State} (h : cmdReady s.pins s = false) (c : Word) : ¬ s.accepts c := by
  rintro ⟨-, -, hready⟩
  simp [h] at hready

theorem hostAfter_offer_of_busy {s : State} {c : Word} {rest : List HostOp} (hhost : s.host = .offer c :: rest)
    (hb : s.busy = true) : hostAfter s = .offer c :: rest := by
  simp [hostAfter, hhost, cmdReady_of_busy hb]

/-- Settles O9: with BUSY = 1 cmd_ready is 0, so no word is accepted and an offer stays; the edge is the engine's. -/
theorem commandsAreHeldWhileBusy : Obligations.CommandsAreHeldWhileBusy := by
  unfold Obligations.CommandsAreHeldWhileBusy
  refine fun s hb => ⟨cmdReady_of_busy hb, not_accepts_of_not_cmdReady (cmdReady_of_busy hb _), step_of_busy hb, ?_⟩
  intro c rest t hhost hstep
  rw [step_host hstep, hostAfter_offer_of_busy hhost hb]

/-- Settles O10: with rst_n = 0 cmd_ready is 0, and the edge is `applyReset`, busy or not, after the ports have moved. -/
theorem resetEdgeAppliesResetValues : Obligations.ResetEdgeAppliesResetValues := by
  unfold Obligations.ResetEdgeAppliesResetValues
  intro s hr
  have hready : cmdReady s.pins s = false := cmdReady_of_reset hr s
  exact ⟨hready, not_accepts_of_not_cmdReady hready, _, step_of_reset hr, applyReset_atReset _,
    applyReset_encRemaining _, applyReset_host _⟩

/-! PROOFS. What a read shows at the reset values (R131). -/

/-- The addresses that show no result: STATUS, three registers, the PLT_IN view and the two reserved ranges (20_memory.md
R34 to R42). -/
theorem not_resultAddr_cases {a : Nat} (ha : isResultAddr a = false) :
    a = 0x00000 ∨ a = 0x00001 ∨ a = 0x00002 ∨ a = 0x00003 ∨ (∃ i < 256, a = 0x00100 + i) ∨
      ((0x00007 ≤ a ∧ a ≤ 0x000FF) ∨ (0x00300 ≤ a ∧ a ≤ 0x0FFFF)) := by
  obtain ⟨h4, h5, h6, hplt, hbb⟩ := isResultAddr_eq_false_iff.1 ha
  by_cases hview : 0x00100 ≤ a ∧ a ≤ 0x001FF
  · exact .inr (.inr (.inr (.inr (.inl ⟨a - 0x00100, by omega, by omega⟩))))
  · omega

/-- With STATUS and the registers 0 and no entry valid, the map shows 0 outside the result addresses. -/
theorem readMap_eq_zero_of_no_inputs {s : State} {a : Nat} (ha : isResultAddr a = false) (hstatus : statusWord s = 0)
    (hw : s.w = 0) (hh : s.h = 0) (hpixcnt : s.pixcnt = 0) (hpltptr : s.pltptr = 0) (hvalid : s.pltValid = 0) :
    readMap s a = 0 := by
  obtain rfl | rfl | rfl | rfl | ⟨i, hi, rfl⟩ | hreserved := not_resultAddr_cases ha
  · exact hstatus
  · show (s.h ++ s.w).zeroExtend 32 = 0
    rw [hh, hw]
    rfl
  · exact congrArg (BitVec.zeroExtend 32) hpixcnt
  · exact congrArg (BitVec.zeroExtend 32) hpltptr
  · rw [readMap_pltInView s hi]
    simp [pltInView, hvalid]
  · exact readMap_reserved s hreserved

theorem State.AtReset.memRead_eq_zero {s : State} (h : s.AtReset) (a : Addr) : memRead s a = 0 := by
  obtain ⟨hw, hh, hpixcnt, -, hpltptr, -, hvalid, hb, hres, herr, hcode, hbpp, hncol, hnbytes, -, -⟩ := h
  rw [memRead_of_not_busy hb]
  cases ha : isResultAddr a.toNat with
  | true => exact readMap_eq_zero_of_no_result ha hncol hbpp hnbytes
  | false =>
    exact readMap_eq_zero_of_no_inputs ha (statusWord_eq_zero hcode herr hres hb) hw hh hpixcnt hpltptr hvalid

/-- Settles O11: `State.reset` is its own reset, and at the reset values every range of the map shows 0. -/
theorem resetStateReadsZero : Obligations.ResetStateReadsZero := by
  unfold Obligations.ResetStateReadsZero
  exact ⟨applyReset_atReset State.reset, rfl, fun s a h => h.memRead_eq_zero a⟩

/-! PROOFS. The result between two ENCODEs (R138, 10_state.md R19): who writes it, and where a read shows it only. -/

section Result
variable {s t : State}

@[simp] theorem sameResult_portsEdge_iff : SameResult (portsEdge s) t ↔ SameResult s t := by simp [SameResult]
@[simp] theorem sameEngine_portsEdge_iff : SameEngine (portsEdge s) t ↔ SameEngine s t := by simp [SameEngine]

/-- Of the commands only CLEAR and ENCODE write the result or the engine. -/
theorem exec_sameResult_sameEngine {i : Instr} (hexec : exec i s = .next t) (hclear : i ≠ .clear)
    (hencode : i ≠ .encode) : SameResult s t ∧ SameEngine s t := by
  cases i with
  | clear => exact absurd rfl hclear
  | encode => exact absurd rfl hencode
  | nop | clrerr => cases hexec; simp [SameResult, SameEngine]
  | setdim w h | pltptr p | pltw r g b | pixw idx => exact exec_input_sameResult_sameEngine (by simp) hexec

theorem step_sameResult_sameEngine (hstep : step s = .next t) (hr : s.pins.rstN = true) (hb : s.busy = false)
    (hacc : ∀ c, s.accepts c → decode c ≠ .instr .clear ∧ decode c ≠ .instr .encode) :
    SameResult s t ∧ SameEngine s t := by
  rcases step_cases_without_reset hstep hr with ⟨hb', -⟩ | ⟨c, i, hc, hdec, hexec⟩ | ⟨c, -, -, rfl⟩ | ⟨-, rfl⟩
  · simp [hb] at hb'
  · obtain ⟨hclear, hencode⟩ : i ≠ .clear ∧ i ≠ .encode := by simpa [hdec] using hacc c hc
    simpa using exec_sameResult_sameEngine hexec hclear hencode
  · simpa using And.intro (raiseError_sameResult (portsEdge s) .illegalCmd)
      (raiseError_sameEngine (portsEdge s) .illegalCmd)
  · exact ⟨portsEdge_sameResult s, portsEdge_sameEngine s⟩

theorem memRead_congr_of_sameResult {a : Addr} (ha : isResultAddr a.toNat = true) (hs : s.busy = false)
    (ht : t.busy = false) (h : SameResult s t) : memRead t a = memRead s a := by
  rw [memRead_of_not_busy ht, memRead_of_not_busy hs, readMap_congr_of_sameResult ha h]

end Result

/-- Settles O51: the edge writes neither the result nor the engine, so BUSY stays 0 and the reads show the same result. -/
theorem resultIsASnapshot : Obligations.ResultIsASnapshot := by
  unfold Obligations.ResultIsASnapshot
  intro s t hstep hr hb hacc
  obtain ⟨hresult, hbusy, -⟩ := step_sameResult_sameEngine hstep hr hb hacc
  exact ⟨hresult, fun a ha => memRead_congr_of_sameResult ha hb (hbusy.trans hb) hresult⟩

end Sys2Proof.Machine
